-- ==== Sys2Proof/Word.lean ====
section
/-! DEFINITION. The two word types of the hardware: a byte of the TX stream and a request word. -/

namespace Sys2Proof

/-- A byte: the element of the TX stream, of a frame and of every table entry (rule R11). -/
abbrev Byte := BitVec 8

/-- One request: REQ[127:0], the "instruction" of this hardware (rules R16 and R60). -/
abbrev Request := BitVec 128

end Sys2Proof
end

