-- ==== Sys2Proof/Syntax.lean ====
section
/-! DEFINITION. The syntax: buttons, modifier names, the seven operations (one constructor of `Instr` per row
of spec/opcode_table.json) and the pseudo-operations of rule R72. -/

namespace Sys2Proof

/-- The four values of the BTN field (rule R150). -/
inductive Button where
  | none | left | right | center
  deriving DecidableEq, Repr

/-- The 12 modifier names (rule R68). -/
inductive ModName where
  | ctrl | ctrlLeft | ctrlRight
  | shift | shiftLeft | shiftRight
  | alt | altLeft | altRight
  | win | winLeft | winRight
  deriving DecidableEq, Repr

/-- A decoded request. One constructor per operation of rule R61, with the fields its format lists.
The twelve key entries and payload bytes are all kept as the word holds them. Which of them are read is the
operation's own matter (rules R64 and R67). -/
inductive Instr where
  /-- KB_PRESS, format KP (rules R62 and R126). -/
  | kbPress (key : Byte) (mods : BitVec 16)
  /-- KB_RELEASE, format KR (rules R63 and R127). -/
  | kbRelease
  /-- KB_TRIGGER, format KT (rules R64 and R128). -/
  | kbTrigger (nkeys : BitVec 4) (mods : BitVec 16) (keys : Vector Byte 12)
  /-- MS_ABS, format MA (rules R65 and R158). -/
  | msAbs (btn : Button) (wheel x y : BitVec 16)
  /-- MS_REL, format MR (rules R66 and R159). -/
  | msRel (btn : Button) (wheel dx dy : BitVec 16)
  /-- FRAME, format FR (rules R67 and R87). -/
  | frame (addr cmd len : Byte) (payload : Vector Byte 12)
  /-- KEY_LOOKUP, format KP with MODS ignored (rules R62 and R108). -/
  | keyLookup (key : Byte)
  deriving DecidableEq, Repr

/-- The pseudo-operations of rule R72. `kbType` carries the characters' key ids, in order. -/
inductive Pseudo where
  | msPress (btn : Button)
  | msRelease
  | msMoveRel (dx dy : BitVec 16)
  | msMoveAbs (x y : BitVec 16)
  | msClick (btn : Button)
  | kbTap (key : Byte) (mods : BitVec 16)
  | kbType (text : List Byte)
  deriving DecidableEq, Repr

end Sys2Proof
end

