-- ==== Sys2Proof/Config.lean ====
section
/-! DEFINITION. What an instance fixes: the parameters of rule R9 and the number of requesters (rule R221).
The default values stand in Machine/Instance.lean. -/

namespace Sys2Proof

/-- One KEY_ROM entry, `(valid : 1 bit, scan : 8 bits, shift : 1 bit)` (rules R27 and R101). -/
structure RomEntry where
  valid : Bool
  scan : Byte
  shift : Bool
  deriving DecidableEq, Repr

/-- Who presents requests (rules R198 and R221): one requester, several behind an external arbiter, or several
with nothing that serialises them. -/
inductive Requesters where
  | single | arbitrated | unarbitrated
  deriving DecidableEq, Repr

/-- An instance: "one configured core with its values of the rule R9 parameters" (rule R16). -/
structure Instance where
  /-- SCREEN_X -/
  screenX : BitVec 16
  /-- SCREEN_Y -/
  screenY : BitVec 16
  /-- KEY_ROM, indexed by key id -/
  keyRom : Vector RomEntry 256
  /-- MOD_BIT, indexed by the name's position in MODS -/
  modBit : Vector (BitVec 3) 12
  /-- BTN_CODE, indexed by the BTN enum -/
  btnCode : Vector Byte 4
  /-- TRIGGER_APPLIES_SHIFT -/
  triggerAppliesShift : Bool
  /-- who presents requests -/
  requesters : Requesters
  deriving DecidableEq, Repr

end Sys2Proof
end

