-- ==== Sys2Proof/Machine/Instance.lean ====
section
/-! DEFINITION. The default tables of rule R9 (KEY_ROM, MOD_BIT, BTN_CODE), the instance that `State.reset`
is made from, and the checks an instance must pass before a core is built from it (rules R26, R101, R106, R121, R221). -/

namespace Sys2Proof.Machine

/-! ## KEY_ROM (rules R101 to R105) -/

/-- An entry for an unshifted character or a named key (rule R102). -/
def romPlain (scan : Byte) : RomEntry := { valid := true, scan := scan, shift := false }

/-- An entry for the shifted form of a physical key (rule R102). -/
def romShifted (scan : Byte) : RomEntry := { valid := true, scan := scan, shift := true }

/-- An entry that is no key: "Entries with valid = 0 have scan = `0x00` and shift = 0" (rule R101). -/
def romInvalid : RomEntry := { valid := false, scan := 0, shift := false }

/-- Key ids `0x20` to `0x2F` (rule R103). -/
def romRows20 : List RomEntry :=
  [romPlain 0x2C, romShifted 0x1E, romShifted 0x34, romShifted 0x20,
   romShifted 0x21, romShifted 0x22, romShifted 0x24, romPlain 0x34,
   romShifted 0x26, romShifted 0x27, romShifted 0x25, romShifted 0x2E,
   romPlain 0x36, romPlain 0x2D, romPlain 0x37, romPlain 0x38]

/-- Key ids `0x30` to `0x3F` (rule R103). -/
def romRows30 : List RomEntry :=
  [romPlain 0x27, romPlain 0x1E, romPlain 0x1F, romPlain 0x20,
   romPlain 0x21, romPlain 0x22, romPlain 0x23, romPlain 0x24,
   romPlain 0x25, romPlain 0x26, romShifted 0x33, romPlain 0x33,
   romShifted 0x36, romPlain 0x2E, romShifted 0x37, romShifted 0x38]

/-- Key ids `0x40` to `0x4F` (rule R103). -/
def romRows40 : List RomEntry :=
  [romShifted 0x1F, romShifted 0x04, romShifted 0x05, romShifted 0x06,
   romShifted 0x07, romShifted 0x08, romShifted 0x09, romShifted 0x0A,
   romShifted 0x0B, romShifted 0x0C, romShifted 0x0D, romShifted 0x0E,
   romShifted 0x0F, romShifted 0x10, romShifted 0x11, romShifted 0x12]

/-- Key ids `0x50` to `0x5F` (rule R103). -/
def romRows50 : List RomEntry :=
  [romShifted 0x13, romShifted 0x14, romShifted 0x15, romShifted 0x16,
   romShifted 0x17, romShifted 0x18, romShifted 0x19, romShifted 0x1A,
   romShifted 0x1B, romShifted 0x1C, romShifted 0x1D, romPlain 0x2F,
   romPlain 0x31, romPlain 0x30, romShifted 0x23, romShifted 0x2D]

/-- Key ids `0x60` to `0x6F` (rule R103). -/
def romRows60 : List RomEntry :=
  [romPlain 0x35, romPlain 0x04, romPlain 0x05, romPlain 0x06,
   romPlain 0x07, romPlain 0x08, romPlain 0x09, romPlain 0x0A,
   romPlain 0x0B, romPlain 0x0C, romPlain 0x0D, romPlain 0x0E,
   romPlain 0x0F, romPlain 0x10, romPlain 0x11, romPlain 0x12]

/-- Key ids `0x70` to `0x7E` (rule R103). -/
def romRows70 : List RomEntry :=
  [romPlain 0x13, romPlain 0x14, romPlain 0x15, romPlain 0x16,
   romPlain 0x17, romPlain 0x18, romPlain 0x19, romPlain 0x1A,
   romPlain 0x1B, romPlain 0x1C, romPlain 0x1D, romShifted 0x2F,
   romShifted 0x31, romShifted 0x30, romShifted 0x35]

/-- Key ids `0x80` to `0x8E`, `enter` to `f10` (rule R104). -/
def romRows80 : List RomEntry :=
  [romPlain 0x28, romPlain 0x29, romPlain 0x2A, romPlain 0x2B, romPlain 0x39,
   romPlain 0x3A, romPlain 0x3B, romPlain 0x3C, romPlain 0x3D, romPlain 0x3E,
   romPlain 0x3F, romPlain 0x40, romPlain 0x41, romPlain 0x42, romPlain 0x43]

/-- Key ids `0x8F` to `0x9D`, `f11` to `up` (rule R104). -/
def romRows8F : List RomEntry :=
  [romPlain 0x44, romPlain 0x45, romPlain 0x46, romPlain 0x47, romPlain 0x48,
   romPlain 0x49, romPlain 0x4A, romPlain 0x4B, romPlain 0x4C, romPlain 0x4D,
   romPlain 0x4E, romPlain 0x4F, romPlain 0x50, romPlain 0x51, romPlain 0x52]

/-- The 256 entries in key-id order: `0x00` to `0x1F`, `0x7F` and `0x9E` to `0xFF` are no keys (rules R100 and R105). -/
def keyRomList : List RomEntry :=
  List.replicate 32 romInvalid ++ romRows20 ++ romRows30 ++ romRows40 ++ romRows50 ++ romRows60 ++ romRows70
    ++ [romInvalid] ++ romRows80 ++ romRows8F ++ List.replicate 98 romInvalid

/-- The list has one entry for each of the 256 key ids. -/
theorem keyRomList_length : keyRomList.length = 256 := by
  have h20 : romRows20.length = 16 := rfl
  have h30 : romRows30.length = 16 := rfl
  have h40 : romRows40.length = 16 := rfl
  have h50 : romRows50.length = 16 := rfl
  have h60 : romRows60.length = 16 := rfl
  have h70 : romRows70.length = 15 := rfl
  have h80 : romRows80.length = 15 := rfl
  have h8F : romRows8F.length = 15 := rfl
  simp only [keyRomList, List.length_append, List.length_replicate, List.length_singleton, h20, h30, h40, h50,
    h60, h70, h80, h8F]

/-- The default KEY_ROM (rules R103 to R105, decision D8, general knowledge G1). -/
def defaultKeyRom : Vector RomEntry 256 := ⟨⟨keyRomList⟩, keyRomList_length⟩

/-! ## MOD_BIT (rules R68 and R121) -/

/-- The 12 names in the order of their MODS bits (rule R68). -/
def modNames : List ModName :=
  [.ctrl, .ctrlLeft, .ctrlRight, .shift, .shiftLeft, .shiftRight,
   .alt, .altLeft, .altRight, .win, .winLeft, .winRight]

/-- The MODS bit of a name (rule R68). -/
def modPos : ModName → Fin 12
  | .ctrl => 0
  | .ctrlLeft => 1
  | .ctrlRight => 2
  | .shift => 3
  | .shiftLeft => 4
  | .shiftRight => 5
  | .alt => 6
  | .altLeft => 7
  | .altRight => 8
  | .win => 9
  | .winLeft => 10
  | .winRight => 11

/-- The default MOD_BIT, by position: the USB HID boot-keyboard modifier byte (rule R121, decision D10,
general knowledge G2). -/
def defaultModBit : Vector (BitVec 3) 12 := #v[0, 0, 4, 1, 1, 5, 2, 2, 6, 3, 3, 7]

/-- The name itself, an unqualified name read as its left-side form: "the unqualified name (e.g. "ctrl") aliases
the left-side bit" (rule R121). -/
def leftForm : ModName → ModName
  | .ctrl => .ctrlLeft
  | .shift => .shiftLeft
  | .alt => .altLeft
  | .win => .winLeft
  | n => n

/-! ## BTN_CODE (rule R151) -/

/-- The default BTN_CODE: none, left, right, center (rule R151, decision D11, general knowledge G3 for the last two). -/
def defaultBtnCode : Vector Byte 4 := #v[0x00, 0x01, 0x02, 0x04]

/-! ## Checks on an instance -/

/-- "1 <= SCREEN_X <= 65535 and 1 <= SCREEN_Y <= 65535" (rule R26). -/
def screensOk (x y : BitVec 16) : Bool := x != 0#16 && y != 0#16

/-- The three properties a replacement MOD_BIT must keep (rules R121 and R124): two names share a bit exactly when
one is the unqualified form of the other. That each name has exactly one bit is the table's type. -/
def modBitOk (t : Vector (BitVec 3) 12) : Bool :=
  modNames.all fun p => modNames.all fun q =>
    (t[(modPos p).val] == t[(modPos q).val]) == (leftForm p == leftForm q)

/-- An entry that is no key holds scan 0 and shift 0 (rule R101). -/
def romEntryOk (e : RomEntry) : Bool := e.valid || e == romInvalid

/-- Every entry passes `romEntryOk`, and `a` and `A` have the entries the source pins down (rules R101 and R106). -/
def keyRomOk (t : Vector RomEntry 256) : Bool :=
  t.toList.all romEntryOk && t[0x61] == romPlain 0x04 && t[0x41] == romShifted 0x04

/-- Requesters are serialised (rules R198 and R221). -/
def requestersOk : Requesters → Bool
  | .single => true
  | .arbitrated => true
  | .unarbitrated => false

/-! ## The instance of `State.reset` -/

/-- The instance `State.reset` is made from. The tables and TRIGGER_APPLIES_SHIFT are the spec's defaults
(rule R9). DESIGN CHOICE (log entry 4): the screen is 1920 x 1080, which the spec uses for its test vectors and calls no
default. -/
def defaultInstance : Instance :=
  { screenX := 1920
    screenY := 1080
    keyRom := defaultKeyRom
    modBit := defaultModBit
    btnCode := defaultBtnCode
    triggerAppliesShift := false
    requesters := .single }

end Sys2Proof.Machine
end

