-- ==== Sys2Proof/Machine/State.lean ====
section
/-! DEFINITION. The state of the core (rule R30) with the environment's inputs beside it, the error codes, the
faults and refusals, and the state after reset (rule R210). -/

namespace Sys2Proof.Machine

/-- How the transport answers one `write` (rules R44 and R46): success, or an error after some number of bytes of the
frame reached the link. A count beyond the frame's length means the whole frame. -/
inductive WriteResult where
  | ok
  | ioError (written : Nat)
  deriving DecidableEq, Repr

/-- What the outside presents to the core, one at a time (rules R21, R210 and R220): a request word with the
transport's answer to the one write that request may make, or a reset. -/
inductive Arrival where
  | request (word : Request) (reply : WriteResult)
  | reset
  deriving DecidableEq, Repr

/-- The errors of rule R180. There is no name for the codes 9 to 15, which are never produced. -/
inductive Err where
  | unknownKey | unknownModifier | tooManyKeys | range | frameLength | command | illegalRequest | transport
  deriving DecidableEq, Repr

/-- The reasons the machine could stop with a fault: none. Every error is an outcome the hardware defines, reported
in RESP (rules R189 and R190), and no access can fault (rule R42). -/
inductive Fault where
  deriving DecidableEq, Repr

/-- The reasons the model refuses. No instruction's meaning raises one. -/
inductive Refusal where
  /-- Raised by an arm of `exec` for an instruction without a meaning: there is none. Safe. -/
  | notModelled (mnemonic : String)
  /-- Raised by `powerOn` and by `step` for an instance with SCREEN_X = 0 or SCREEN_Y = 0, which "a model refuses to
  construct" (rule R26). Safe. -/
  | zeroResolution
  /-- Raised by `powerOn` for a MOD_BIT without the properties of rule R121. Safe. -/
  | badModBit
  /-- Raised by `powerOn` for a KEY_ROM that breaks rule R101 or lacks the entries of rule R106. Safe. -/
  | badKeyRom
  /-- Raised by `powerOn` for several requesters without an arbiter: "a model refuses such a configuration"
  (rule R221). Safe. -/
  | unarbitratedRequesters
  deriving DecidableEq, Repr

/-- The state. The first seven fields are the complete list of rule R30. -/
structure State where
  /-- RESP, the response register (rule R22) -/
  resp : BitVec 32
  /-- CFG_SCREEN_X (rule R25) -/
  cfgScreenX : BitVec 16
  /-- CFG_SCREEN_Y (rule R25) -/
  cfgScreenY : BitVec 16
  /-- KEY_ROM (rule R27) -/
  keyRom : Vector RomEntry 256
  /-- MOD_BIT (rule R27) -/
  modBit : Vector (BitVec 3) 12
  /-- BTN_CODE (rule R27) -/
  btnCode : Vector Byte 4
  /-- TX: the bytes handed to the transport since the last reset, oldest first (rule R28) -/
  tx : List Byte
  /-- TRIGGER_APPLIES_SHIFT, the instance's parameter (rule R9) -/
  triggerAppliesShift : Bool
  /-- the model's own: what the outside will present, in arrival order (log entry 1) -/
  arrivals : List Arrival
  /-- the model's own: the transport's answer to a write of the current request (log entry 2) -/
  reply : WriteResult
  /-- the model's step index, "the position in the request sequence" (rule R21, log entry 6) -/
  stepIndex : Nat
  deriving DecidableEq, Repr

/-- The state after reset of an instance (rules R30, R210 and R211): RESP = 0, TX empty, the configuration registers and
tables as the instance gives them, no request in progress. -/
def State.ofInstance (p : Instance) : State :=
  { resp := 0x00000000
    cfgScreenX := p.screenX
    cfgScreenY := p.screenY
    keyRom := p.keyRom
    modBit := p.modBit
    btnCode := p.btnCode
    tx := []
    triggerAppliesShift := p.triggerAppliesShift
    arrivals := []
    reply := .ok
    stepIndex := 0 }

/-- The machine right after reset, for the instance of log entry 4, with nothing presented to it yet. -/
def State.reset : State := State.ofInstance defaultInstance

end Sys2Proof.Machine
end

