-- ==== Sys2Proof/Machine/Flags.lean ====
section
/-! DEFINITION. RESP, the core's only status (rules R22 to R24): its fields, the error codes of rule R180 and the
values a request writes. -/

namespace Sys2Proof.Machine

/-! ## Fields (rule R22) -/

/-- STATUS = RESP[3:0]. -/
def statusOf (r : BitVec 32) : BitVec 4 := r.extractLsb' 0 4

/-- SCAN = RESP[15:8]. -/
def scanOf (r : BitVec 32) : Byte := r.extractLsb' 8 8

/-- SHIFT = RESP[16]. -/
def shiftOf (r : BitVec 32) : Bool := r.getLsbD 16

/-- RESP[7:4], which reads 0. -/
def respReservedLow (r : BitVec 32) : BitVec 4 := r.extractLsb' 4 4

/-- RESP[31:17], which reads 0. -/
def respReservedHigh (r : BitVec 32) : BitVec 15 := r.extractLsb' 17 15

/-! ## Values written (rule R23) -/

/-- The code of an error (rule R180). -/
def Err.code : Err → BitVec 4
  | .unknownKey => 1
  | .unknownModifier => 2
  | .tooManyKeys => 3
  | .range => 4
  | .frameLength => 5
  | .command => 6
  | .illegalRequest => 7
  | .transport => 8

/-- `zext_32(code(E))` (rule R23 case a). -/
def respOfError (e : Err) : BitVec 32 := e.code.zeroExtend 32

/-- `(zext_32(shift) << 16) | (zext_32(scan) << 8) | 0x0` (rule R23 case b, rule R108). -/
def respOfLookup (scan : Byte) (shift : Bool) : BitVec 32 :=
  ((BitVec.ofBool shift).zeroExtend 32 <<< 16) ||| (scan.zeroExtend 32 <<< 8) ||| 0x0#32

/-- `0x00000000` (rule R23 case c). -/
def respOk : BitVec 32 := 0x00000000

end Sys2Proof.Machine
end

