-- ==== Sys2Proof/Decode.lean ====
section
/-! DEFINITION. The request decoder of rules R60 to R69 (total on 128-bit words, an unassigned OP rejected by
name) and the encoder written from the same formats. -/

namespace Sys2Proof

/-- Why a word has no operation: its OP is `0x0` or `0x8` to `0xF` (rules R61 and R70). -/
inductive DecodeReject where
  | unassignedOp (op : BitVec 4)
  deriving DecidableEq, Repr

/-! ## Fields (rules R62 to R67: `field` is REQ[lo+len-1 : lo]) -/

/-- OP = REQ[3:0] (rule R60). -/
def opField (w : Request) : BitVec 4 := w.extractLsb' 0 4

/-- NKEYS = REQ[7:4] (rule R64). -/
def nkeysField (w : Request) : BitVec 4 := w.extractLsb' 4 4

/-- KEY (rule R62) or ADDR (rule R67) = REQ[15:8]. -/
def byte1Field (w : Request) : Byte := w.extractLsb' 8 8

/-- CMD = REQ[23:16] (rule R67). -/
def byte2Field (w : Request) : Byte := w.extractLsb' 16 8

/-- LEN = REQ[31:24] (rule R67). -/
def byte3Field (w : Request) : Byte := w.extractLsb' 24 8

/-- BTN = REQ[9:8] (rules R65 and R66). -/
def btnField (w : Request) : BitVec 2 := w.extractLsb' 8 2

/-- MODS (rules R62 and R64) or WHEEL (rules R65 and R66) = REQ[31:16]. -/
def half1Field (w : Request) : BitVec 16 := w.extractLsb' 16 16

/-- X or DX = REQ[47:32] (rules R65 and R66). -/
def half2Field (w : Request) : BitVec 16 := w.extractLsb' 32 16

/-- Y or DY = REQ[63:48] (rules R65 and R66). -/
def half3Field (w : Request) : BitVec 16 := w.extractLsb' 48 16

/-- KEY_i (rule R64) or PB_i (rule R67) = REQ[32+8i+7 : 32+8i]. -/
def entryField (w : Request) (i : Nat) : Byte := w.extractLsb' (32 + 8 * i) 8

/-- The twelve entries, i = 0 to 11. -/
def entriesField (w : Request) : Vector Byte 12 := Vector.ofFn fun i => entryField w i.val

/-- The BTN enum: 0 none, 1 left, 2 right, 3 center (rule R150). -/
def buttonOf (b : BitVec 2) : Button :=
  match b.toNat with
  | 0 => .none
  | 1 => .left
  | 2 => .right
  | _ => .center

/-- The number of a button in the BTN enum (rule R150). -/
def buttonBits : Button → BitVec 2
  | .none => 0
  | .left => 1
  | .right => 2
  | .center => 3

/-! ## Decode -/

/-- The OP map of rule R61. OP alone selects the format (rule R60). Every bit the format does not list is
dropped here (rule R69). -/
def decode (w : Request) : Except DecodeReject Instr :=
  match (opField w).toNat with
  | 0x1 => .ok (.kbPress (byte1Field w) (half1Field w))
  | 0x2 => .ok .kbRelease
  | 0x3 => .ok (.kbTrigger (nkeysField w) (half1Field w) (entriesField w))
  | 0x4 => .ok (.msAbs (buttonOf (btnField w)) (half1Field w) (half2Field w) (half3Field w))
  | 0x5 => .ok (.msRel (buttonOf (btnField w)) (half1Field w) (half2Field w) (half3Field w))
  | 0x6 => .ok (.frame (byte1Field w) (byte2Field w) (byte3Field w) (entriesField w))
  | 0x7 => .ok (.keyLookup (byte1Field w))
  | _ => .error (.unassignedOp (opField w))

/-- The word whose lowest `nbits` bits are those of `w` and whose other bits are 0. -/
def tableWord (nbits w : Nat) : Request := BitVec.ofNat 128 (w % 2 ^ nbits)

/-- The instruction the decoder reads from an opcode-table word (spec/opcode_table.json's numbering is the
request word's own: bit 0 is REQ[0]). -/
def decodeTableWord (nbits w : Nat) : Option Instr := (decode (tableWord nbits w)).toOption

/-! ## Encode -/

/-- The twelve entries as REQ[127:32], entry 0 lowest (rules R64 and R67). -/
def packEntries (v : Vector Byte 12) : BitVec 96 :=
  v[11] ++ v[10] ++ v[9] ++ v[8] ++ v[7] ++ v[6] ++ v[5] ++ v[4] ++ v[3] ++ v[2] ++ v[1] ++ v[0]

/-- OP of each operation (rule R61). -/
def opcode : Instr → BitVec 4
  | .kbPress _ _ => 0x1
  | .kbRelease => 0x2
  | .kbTrigger _ _ _ => 0x3
  | .msAbs _ _ _ _ => 0x4
  | .msRel _ _ _ _ => 0x5
  | .frame _ _ _ _ => 0x6
  | .keyLookup _ => 0x7

/-- The operand bits REQ[127:4] of each format (rules R62 to R67), ignored bits 0 (rule R71). -/
def operandBits : Instr → BitVec 124
  | .kbPress key mods => 0#96 ++ mods ++ key ++ 0#4
  | .kbRelease => 0#124
  | .kbTrigger nkeys mods keys => packEntries keys ++ mods ++ 0#8 ++ nkeys
  | .msAbs btn wheel x y => 0#64 ++ y ++ x ++ wheel ++ 0#6 ++ buttonBits btn ++ 0#4
  | .msRel btn wheel dx dy => 0#64 ++ dy ++ dx ++ wheel ++ 0#6 ++ buttonBits btn ++ 0#4
  | .frame addr cmd len payload => packEntries payload ++ len ++ cmd ++ addr ++ 0#4
  | .keyLookup key => 0#112 ++ key ++ 0#4

/-- The request word of an instruction. -/
def encode (i : Instr) : Request := operandBits i ++ opcode i

end Sys2Proof
end

