-- ==== Sys2Proof/Machine/Operands.lean ====
section
/-! DEFINITION. Operand assembly (rule R68), the byte arithmetic of rules R11 and R12, the table reads of
rule R13, and the field encodings of the keyboard and mouse payloads. -/

namespace Sys2Proof.Machine

/-! ## Integers and bytes (rules R11 and R12) -/

/-- `sext_16(f)` (rule R11). -/
def sext16 (f : BitVec 16) : Int := f.toInt

/-- `lo8(v) = v mod 256` (rule R12). -/
def lo8 (v : Nat) : Byte := BitVec.ofNat 8 (v % 256)

/-- `hi8(v) = (v div 256) mod 256` (rule R12). -/
def hi8 (v : Nat) : Byte := BitVec.ofNat 8 (v / 256 % 256)

/-- `byte8(v) = v mod 256` for an integer, two's complement in one byte (rule R12). -/
def byte8 (v : Int) : Byte := BitVec.ofInt 8 v

/-- `sum8(s)`: the sum of the bytes as unsigned integers, mod 256 (rule R12). -/
def sum8 (s : List Byte) : Byte := BitVec.ofNat 8 ((s.map BitVec.toNat).sum % 256)

/-- `popcount(m)` over the 16 bits of a name mask (rule R11). -/
def popcount (m : BitVec 16) : Nat := ((List.range 16).filter fun j => m.getLsbD j).length

/-! ## Tables (rule R13) -/

/-- `RomRead(k)` (rule R101). -/
def romRead (rom : Vector RomEntry 256) (k : Byte) : RomEntry := rom[k.toNat]'k.isLt

/-- `ModBit(n)` (rule R121). -/
def modBitOf (t : Vector (BitVec 3) 12) (n : ModName) : BitVec 3 := t[(modPos n).val]

/-- `BtnCode(b)` (rule R151). -/
def btnByte (t : Vector Byte 4) (b : Button) : Byte := t[(buttonBits b).toNat]'(buttonBits b).isLt

/-! ## Keyboard fields -/

/-- MODS[15:12] is not 0: an unknown modifier is named (rule R123). -/
def unknownModifiers (mods : BitVec 16) : Bool := mods.extractLsb' 12 4 != 0#4

/-- MODS[11:0], the set of the 12 names (rule R122). -/
def nameSet (mods : BitVec 16) : BitVec 12 := mods.extractLsb' 0 12

/-- `1 << MOD_BIT[n]` (rule R122). -/
def modMask (t : Vector (BitVec 3) 12) (n : ModName) : Byte := 1#8 <<< (modBitOf t n).toNat

/-- `ModByte(m)`: the OR of the named modifiers' bits (rule R122). -/
def modByte (t : Vector (BitVec 3) 12) (m : BitVec 12) : Byte :=
  (modNames.filter fun n => m.getLsbD (modPos n).val).foldl (fun b n => b ||| modMask t n) 0#8

/-- SHIFTBIT, the bit of the name `shift` (rule R125). -/
def shiftBit (t : Vector (BitVec 3) 12) : Byte := modMask t .shift

/-- The modifier byte with the implicit shift added when `implied` (rule R125). -/
def modByteWith (t : Vector (BitVec 3) 12) (m : BitVec 12) (implied : Bool) : Byte :=
  if implied then modByte t m ||| shiftBit t else modByte t m

/-- The entries not in `seen`, each at its first occurrence. -/
def dedupFrom (seen : List Byte) : List Byte → List Byte
  | [] => []
  | k :: ks => if seen.contains k then dedupFrom seen ks else k :: dedupFrom (k :: seen) ks

/-- `Dedup(list)`: the first occurrence of each key id, in order (rule R129). -/
def dedup (ks : List Byte) : List Byte := dedupFrom [] ks

/-- The ROM entries of a list of key ids, or none at the first invalid one (rule R128). -/
def lookupAll (rom : Vector RomEntry 256) : List Byte → Option (List RomEntry)
  | [] => some []
  | k :: ks =>
    if (romRead rom k).valid then (lookupAll rom ks).map fun es => romRead rom k :: es else none

/-- Six slots: the scan codes, then empty slots `0x00` (rules R120 and R128). -/
def padSlots (scans : List Byte) : List Byte := scans ++ List.replicate (6 - scans.length) 0x00

/-! ## Mouse fields -/

/-- `DeltaByte(d)`, none where it raises RangeError (rule R153). -/
def deltaByte (d : Int) : Option Byte := if d < -127 ∨ d > 127 then none else some (byte8 d)

/-- `WheelByte(w)`, none where it raises RangeError (rule R152). -/
def wheelByte (w : Int) : Option Byte :=
  if w < -127 ∨ w > 127 then none
  else if 0 ≤ w then some (BitVec.ofNat 8 w.toNat)
  else some (BitVec.ofNat 8 (256 + w).toNat)

/-- `Scale(p, s) = (4096 * p) div s` (rule R154). -/
def scale (p s : BitVec 16) : Nat := 4096 * p.toNat / s.toNat

end Sys2Proof.Machine
end

