-- ==== Sys2Proof/Machine/Ops.lean ====
section
/-! DEFINITION. The operations every meaning is made of: writing RESP, appending to TX, `raise` (the core's whole
"exception entry", rule R189), framing (rule R83), handing a frame to the transport (rules R44 and R46), presenting and
accepting what arrives, reset, and building a core from an instance. -/

namespace Sys2Proof.Machine

/-! ## State writes -/

/-- `RESP <- v` (rule R13). -/
def respond (v : BitVec 32) (s : State) : State := { s with resp := v }

/-- `TX <- TX ++ bs` (rule R44). -/
def appendTx (bs : List Byte) (s : State) : State := { s with tx := s.tx ++ bs }

/-- `raise E`: RESP takes the code, nothing is emitted and nothing else changes (rule R189). -/
def raiseError (e : Err) (s : State) : State := respond (respOfError e) s

/-! ## Framing (rules R80 to R88) -/

/-- HEAD, sent in this order (rules R8 and R43). -/
def head : List Byte := [0x57, 0xAB]

/-- ADDR_DEFAULT, the address of every encoder frame (rules R8 and R89). -/
def addrDefault : Byte := 0x00

/-- CMD_KB (rule R8). -/
def cmdKb : Byte := 0x02

/-- CMD_MS_ABS (rule R8). -/
def cmdMsAbs : Byte := 0x04

/-- CMD_MS_REL (rule R8). -/
def cmdMsRel : Byte := 0x05

/-- `ExpectedLen(CMD)`, none for a command byte outside the table (rule R84). -/
def expectedLen (cmd : Byte) : Option Nat :=
  if cmd = cmdKb then some 8
  else if cmd = cmdMsAbs then some 7
  else if cmd = cmdMsRel then some 5
  else none

/-- The bytes of a frame before its checksum (rule R83). -/
def frameBody (addr cmd : Byte) (payload : List Byte) : List Byte :=
  head ++ [addr, cmd, BitVec.ofNat 8 payload.length] ++ payload

/-- `Frame(addr, cmd, payload)` (rule R83). -/
def buildFrame (addr cmd : Byte) (payload : List Byte) : List Byte :=
  frameBody addr cmd payload ++ [sum8 (frameBody addr cmd payload)]

/-- `Parse(f)`, a checking function: the core itself never parses (rule R88). -/
def parseFrame : List Byte → Option (Byte × Byte × List Byte)
  | h0 :: h1 :: addr :: cmd :: len :: rest =>
    if h0 = 0x57 ∧ h1 = 0xAB ∧ rest.length = len.toNat + 1
        ∧ rest.drop len.toNat = [sum8 (h0 :: h1 :: addr :: cmd :: len :: rest.take len.toNat)] then
      some (addr, cmd, rest.take len.toNat)
    else none
  | _ => none

/-! ## Handing a frame to the transport -/

/-- `Emit(f)` and the end of the request (rules R44, R46, R50 and R188): the transport takes the whole frame and RESP
becomes 0, or its `write` fails after a prefix of the frame and the request ends with TransportError, not retried. -/
def transmit (f : List Byte) (s : State) : State :=
  match s.reply with
  | .ok => respond respOk (appendTx f s)
  | .ioError written => raiseError .transport (appendTx (f.take written) s)

/-- A frame of the keyboard or mouse encoder: address `0x00` (rule R89). -/
def transmitReport (cmd : Byte) (payload : List Byte) (s : State) : State :=
  transmit (buildFrame addrDefault cmd payload) s

/-! ## Arrivals -/

/-- The outside presents more arrivals, after those already presented (rules R21 and R198). -/
def present (as : List Arrival) (s : State) : State := { s with arrivals := s.arrivals ++ as }

/-- The core accepts a request: it leaves the port, the transport's answer to its write is settled, and the step index
advances by exactly one (rules R21 and R46). -/
def accept (reply : WriteResult) (rest : List Arrival) (s : State) : State :=
  { s with arrivals := rest, reply := reply, stepIndex := s.stepIndex + 1 }

/-- A reset of the running core (rules R210 to R212): RESP = 0, TX empty, nothing in progress. The configuration
registers and tables hold the instance's values, which nothing else writes (rules R25 and R27). Nothing is emitted. -/
def resetCore (s : State) : State :=
  { s with resp := 0x00000000, tx := [], reply := .ok, stepIndex := 0 }

/-! ## Configuration -/

/-- Why the model refuses an instance, the first reason in this order, or none (rules R26, R101, R106, R121 and R221). -/
def instanceRefusal (p : Instance) : Option Refusal :=
  if screensOk p.screenX p.screenY = false then some .zeroResolution
  else if modBitOk p.modBit = false then some .badModBit
  else if keyRomOk p.keyRom = false then some .badKeyRom
  else if requestersOk p.requesters = false then some .unarbitratedRequesters
  else none

/-- Building a core from an instance: the state after reset, or a refusal (rules R26 and R213). -/
def powerOn (p : Instance) : Host.Outcome State Fault Refusal :=
  match instanceRefusal p with
  | some r => .refused r
  | none => .next (State.ofInstance p)

end Sys2Proof.Machine
end

