-- ==== Sys2Proof/Machine/HidKeycodeRom.lean ====
section
/-! DEFINITION. hid_keycode_rom: the meaning of KEY_LOOKUP (rule R108). -/

namespace Sys2Proof.Machine

/-- KEY_LOOKUP's state change (rule R108): nothing is emitted. -/
def keyLookupEffect (key : Byte) (s : State) : State :=
  let e := romRead s.keyRom key
  if e.valid = false then raiseError .unknownKey s
  else respond (respOfLookup e.scan e.shift) s

/-- KEY_LOOKUP (rule R108). -/
def execKeyLookup (key : Byte) (s : State) : Host.Outcome State Fault Refusal :=
  .next (keyLookupEffect key s)

end Sys2Proof.Machine
end

