-- ==== Sys2Proof/Machine/KeyboardEncoder.lean ====
section
/-! DEFINITION. keyboard_encoder: the meanings of KB_PRESS, KB_RELEASE and KB_TRIGGER (rules R126 to R128). -/

namespace Sys2Proof.Machine

/-- The 8-byte report `[MODBYTE, RESERVED = 0x00, SLOT_0 to SLOT_5]` (rule R120). -/
def keyboardReport (mb : Byte) (scans : List Byte) : List Byte := [mb, 0x00] ++ padSlots scans

/-- KB_PRESS's state change (rule R126): the key is looked up first, then the modifiers are checked. -/
def kbPressEffect (key : Byte) (mods : BitVec 16) (s : State) : State :=
  let e := romRead s.keyRom key
  if e.valid = false then raiseError .unknownKey s
  else if unknownModifiers mods then raiseError .unknownModifier s
  else transmitReport cmdKb (keyboardReport (modByteWith s.modBit (nameSet mods) e.shift) [e.scan]) s

/-- KB_PRESS (rule R126). -/
def execKbPress (key : Byte) (mods : BitVec 16) (s : State) : Host.Outcome State Fault Refusal :=
  .next (kbPressEffect key mods s)

/-- KB_RELEASE (rule R127): the all-zero report. -/
def execKbRelease (s : State) : Host.Outcome State Fault Refusal :=
  .next (transmitReport cmdKb (keyboardReport 0x00 []) s)

/-- The report of a KB_TRIGGER whose distinct keys have the entries `es` (rule R128). -/
def triggerReport (s : State) (mods : BitVec 16) (es : List RomEntry) : List Byte :=
  keyboardReport (modByteWith s.modBit (nameSet mods) (s.triggerAppliesShift && es.any (·.shift)))
    (es.map (·.scan))

/-- KB_TRIGGER's state change (rule R128), its checks in the order of rule R191. -/
def kbTriggerEffect (nkeys : BitVec 4) (mods : BitVec 16) (keys : Vector Byte 12) (s : State) : State :=
  let dk := dedup (keys.toList.take nkeys.toNat)
  if nkeys.toNat > 12 then raiseError .illegalRequest s
  else if dk.length > 6 ∨ popcount mods > 8 then raiseError .tooManyKeys s
  else if unknownModifiers mods then raiseError .unknownModifier s
  else
    match lookupAll s.keyRom dk with
    | none => raiseError .unknownKey s
    | some es => transmitReport cmdKb (triggerReport s mods es) s

/-- KB_TRIGGER (rule R128). -/
def execKbTrigger (nkeys : BitVec 4) (mods : BitVec 16) (keys : Vector Byte 12) (s : State) :
    Host.Outcome State Fault Refusal :=
  .next (kbTriggerEffect nkeys mods keys s)

end Sys2Proof.Machine
end

