-- ==== Sys2Proof/Machine/MouseEncoder.lean ====
section
/-! DEFINITION. mouse_encoder: the meanings of MS_ABS and MS_REL (rules R158 and R159). -/

namespace Sys2Proof.Machine

/-- The 7-byte absolute payload, coordinates little-endian (rule R156). -/
def absPayload (button : Byte) (xs ys : Nat) (wheel : Byte) : List Byte :=
  [0x02, button, lo8 xs, hi8 xs, lo8 ys, hi8 ys, wheel]

/-- The 5-byte relative payload (rule R157). -/
def relPayload (button dx dy wheel : Byte) : List Byte := [0x01, button, dx, dy, wheel]

/-- MS_ABS's state change (rule R158): the wheel is checked first, then the coordinates. -/
def msAbsEffect (btn : Button) (wheel x y : BitVec 16) (s : State) : State :=
  match wheelByte (sext16 wheel) with
  | none => raiseError .range s
  | some wb =>
    if x.toNat ≥ s.cfgScreenX.toNat ∨ y.toNat ≥ s.cfgScreenY.toNat then raiseError .range s
    else
      transmitReport cmdMsAbs
        (absPayload (btnByte s.btnCode btn) (scale x s.cfgScreenX) (scale y s.cfgScreenY) wb) s

/-- MS_ABS (rule R158). -/
def execMsAbs (btn : Button) (wheel x y : BitVec 16) (s : State) : Host.Outcome State Fault Refusal :=
  .next (msAbsEffect btn wheel x y s)

/-- MS_REL's state change (rule R159). The screen size is not read. -/
def msRelEffect (btn : Button) (wheel dx dy : BitVec 16) (s : State) : State :=
  match deltaByte (sext16 dx), deltaByte (sext16 dy), wheelByte (sext16 wheel) with
  | some xb, some yb, some wb => transmitReport cmdMsRel (relPayload (btnByte s.btnCode btn) xb yb wb) s
  | _, _, _ => raiseError .range s

/-- MS_REL (rule R159). -/
def execMsRel (btn : Button) (wheel dx dy : BitVec 16) (s : State) : Host.Outcome State Fault Refusal :=
  .next (msRelEffect btn wheel dx dy s)

end Sys2Proof.Machine
end

