-- ==== Sys2Proof/Machine/PacketFramer.lean ====
section
/-! DEFINITION. packet_framer: the meaning of FRAME (rule R87). -/

namespace Sys2Proof.Machine

/-- FRAME's state change (rule R87): the command is checked first, then the length. The address and the payload bytes
are taken as given (decision D20). -/
def frameEffect (addr cmd len : Byte) (payload : Vector Byte 12) (s : State) : State :=
  match expectedLen cmd with
  | none => raiseError .command s
  | some n =>
    if len.toNat ≠ n then raiseError .frameLength s
    else transmit (buildFrame addr cmd (payload.toList.take len.toNat)) s

/-- FRAME (rule R87). -/
def execFrame (addr cmd len : Byte) (payload : Vector Byte 12) (s : State) : Host.Outcome State Fault Refusal :=
  .next (frameEffect addr cmd len payload s)

end Sys2Proof.Machine
end

