-- ==== Sys2Proof/Machine/Dispatch.lean ====
section
/-! DEFINITION. One arm per operation of rule R61. -/

namespace Sys2Proof.Machine

def exec (i : Instr) (s : State) : Host.Outcome State Fault Refusal :=
  match i with
  | .kbPress key mods => Sys2Proof.Machine.execKbPress key mods s
  | .kbRelease => Sys2Proof.Machine.execKbRelease s
  | .kbTrigger nkeys mods keys => Sys2Proof.Machine.execKbTrigger nkeys mods keys s
  | .msAbs btn wheel x y => Sys2Proof.Machine.execMsAbs btn wheel x y s
  | .msRel btn wheel dx dy => Sys2Proof.Machine.execMsRel btn wheel dx dy s
  | .frame addr cmd len payload => Sys2Proof.Machine.execFrame addr cmd len payload s
  | .keyLookup key => Sys2Proof.Machine.execKeyLookup key s

end Sys2Proof.Machine
end

