-- ==== Sys2Proof/Machine/Step.lean ====
section
/-! DEFINITION. One step: the core takes the next arrival and completes it (rules R7, R21, R50 and R220). -/

namespace Sys2Proof.Machine

/-- One step. An idle port leaves the core as it is (rule R200, log entry 5). A reset gives the state after reset
(rule R210). A request is accepted, decoded and executed whole. A word without an operation raises IllegalRequest
(rule R187). An instance with a zero resolution is refused (rule R26). -/
def step (s : State) : Host.Outcome State Fault Refusal :=
  if screensOk s.cfgScreenX s.cfgScreenY = false then .refused .zeroResolution
  else
    match s.arrivals with
    | [] => .next s
    | .reset :: rest => .next (resetCore { s with arrivals := rest })
    | .request word reply :: rest =>
      match decode word with
      | .ok i => exec i (accept reply rest s)
      | .error _ => .next (raiseError .illegalRequest (accept reply rest s))

/-- `s` with an opcode-table word presented as the very next request, its write taken by the transport (log entry 3). -/
def State.withFetchWord (s : State) (nbits w : Nat) : State :=
  { s with arrivals := .request (tableWord nbits w) .ok :: s.arrivals }

end Sys2Proof.Machine
end

