-- ==== Sys2Proof/Machine/Pseudo.lean ====
section
/-! DEFINITION. The pseudo-operations of rule R72: each expands to requests, without delays. -/

namespace Sys2Proof.Machine

/-- `ms.press B` is `ms.rel 0, 0, B, 0` (rule R72). -/
def pressRequest (btn : Button) : Instr := .msRel btn 0 0 0

/-- `ms.release` is `ms.rel 0, 0, none, 0` (rule R72). -/
def releaseRequest : Instr := .msRel .none 0 0 0

/-- `kb.tap K, M` is `kb.press K, M` then `kb.release` (rule R72). -/
def tapRequests (key : Byte) (mods : BitVec 16) : List Instr := [.kbPress key mods, .kbRelease]

/-- The requests of a pseudo-operation, in order (rule R72). -/
def expandPseudo : Pseudo → List Instr
  | .msPress btn => [pressRequest btn]
  | .msRelease => [releaseRequest]
  | .msMoveRel dx dy => [.msRel .none 0 dx dy]
  | .msMoveAbs x y => [.msAbs .none 0 x y]
  | .msClick btn => [pressRequest btn, releaseRequest]
  | .kbTap key mods => tapRequests key mods
  | .kbType text => text.flatMap fun key => tapRequests key 0

/-- Requests presented to the core, all of whose writes the transport takes. -/
def okRequests (is : List Instr) : List Arrival := is.map fun i => .request (encode i) .ok

end Sys2Proof.Machine
end

