-- ==== Sys2Proof/Machine/Assembler.lean ====
section
/-! DEFINITION. The assembler syntax of rule R71 and the pseudo-operations of rule R72, from the characters of one line to
its requests. What rule R71 does not fix (blanks, escapes in the string of `kb.type`) is log entry 13. -/

namespace Sys2Proof.Machine

/-! ## Tokens -/

/-- The tokens of a statement. -/
inductive Tok where
  | word (w : String)
  | chr (c : Char)
  | str (s : List Char)
  | comma | openList | closeList | openSet | closeSet
  deriving DecidableEq, Repr

/-- Where the tokenizer stands: outside a string, with the letters of the word so far (latest first), or inside the
string of `kb.type`. -/
inductive LexMode where
  | code (word : List Char)
  | text (chars : List Char)
  deriving DecidableEq, Repr

/-- The word read so far, if any, before the tokens that follow it. -/
def endWord (word : List Char) (ts : List Tok) : List Tok :=
  if word.isEmpty then ts else .word (String.ofList word.reverse) :: ts

/-- The punctuation of rule R71. U+007B and U+007D are the braces. -/
def punctuation (c : Char) : Option Tok :=
  if c = ',' then some .comma
  else if c = '[' then some .openList
  else if c = ']' then some .closeList
  else if c = Char.ofNat 0x7B then some .openSet
  else if c = Char.ofNat 0x7D then some .closeSet
  else none

/-- A printable ASCII character (rule R71). -/
def printable (c : Char) : Bool := 0x20 ≤ c.toNat && c.toNat ≤ 0x7E

/-- The tokens of a line. `;` starts a comment, a character literal is `'c'`, `'\''` or `'\\'` (rule R71). -/
def lexLine : LexMode → List Char → Option (List Tok)
  | .code w, [] => some (endWord w [])
  | .text _, [] => none
  | .text s, c :: cs =>
    if c = '"' then (lexLine (.code []) cs).map (.str s.reverse :: ·) else lexLine (.text (c :: s)) cs
  | .code w, '\'' :: '\\' :: c :: '\'' :: cs =>
    if c = '\'' ∨ c = '\\' then (lexLine (.code []) cs).map fun ts => endWord w (.chr c :: ts) else none
  | .code w, '\'' :: c :: '\'' :: cs =>
    if c ≠ '\'' ∧ c ≠ '\\' ∧ printable c then (lexLine (.code []) cs).map fun ts => endWord w (.chr c :: ts)
    else none
  | .code w, c :: cs =>
    if c = ';' then some (endWord w [])
    else if c = ' ' ∨ c = '\t' then (lexLine (.code []) cs).map (endWord w)
    else if c = '"' then (lexLine (.text []) cs).map (endWord w)
    else
      match punctuation c with
      | some t => (lexLine (.code []) cs).map fun ts => endWord w (t :: ts)
      | none => if c = '\'' then none else lexLine (.code (c :: w)) cs

/-! ## Numbers -/

/-- The value of a decimal or hexadecimal digit, below `base`. -/
def digitValue (base : Nat) (c : Char) : Option Nat :=
  let v := if '0' ≤ c ∧ c ≤ '9' then c.toNat - 0x30
    else if 'a' ≤ c ∧ c ≤ 'f' then c.toNat - 0x61 + 10
    else if 'A' ≤ c ∧ c ≤ 'F' then c.toNat - 0x41 + 10
    else base
  if v < base then some v else none

/-- The value of digits after those that make `acc`. -/
def digitsValue (base acc : Nat) : List Char → Option Nat
  | [] => some acc
  | c :: cs => (digitValue base c).bind fun d => digitsValue base (acc * base + d) cs

/-- A decimal or `0x` hex number (rule R71). -/
def natLiteral : List Char → Option Nat
  | [] => none
  | '0' :: 'x' :: c :: cs => digitsValue 16 0 (c :: cs)
  | c :: cs => digitsValue 10 0 (c :: cs)

/-- A number "with an optional leading `-`" (rule R71). -/
def intLiteral : List Char → Option Int
  | '-' :: cs => (natLiteral cs).map fun n => -Int.ofNat n
  | cs => (natLiteral cs).map Int.ofNat

/-- A number in `lo` to `hi`: "The assembler rejects a literal that does not fit its field" (rule R71). -/
def numberIn (lo hi : Int) : Tok → Option Int
  | .word w => (intLiteral w.toList).bind fun v => if lo ≤ v ∧ v ≤ hi then some v else none
  | _ => none

/-- X or Y: 0 to 65535 (rule R71). -/
def pixelOperand (t : Tok) : Option (BitVec 16) := (numberIn 0 65535 t).map (BitVec.ofInt 16)

/-- DX, DY or W: -32768 to 32767 (rule R71). -/
def signedOperand (t : Tok) : Option (BitVec 16) := (numberIn (-32768) 32767 t).map (BitVec.ofInt 16)

/-- A, C or a payload byte: 0 to 255 (rule R71). -/
def byteOperand (t : Tok) : Option Byte := (numberIn 0 255 t).map (BitVec.ofInt 8)

/-! ## Names -/

/-- The key names of rule R104, with `escape` and `space` (rules R71 and R104). -/
def keyNames : List (String × Byte) :=
  [("enter", 0x80), ("esc", 0x81), ("escape", 0x81), ("backspace", 0x82),
   ("tab", 0x83), ("capslock", 0x84), ("f1", 0x85), ("f2", 0x86),
   ("f3", 0x87), ("f4", 0x88), ("f5", 0x89), ("f6", 0x8A),
   ("f7", 0x8B), ("f8", 0x8C), ("f9", 0x8D), ("f10", 0x8E),
   ("f11", 0x8F), ("f12", 0x90), ("printscreen", 0x91), ("scrolllock", 0x92),
   ("pause", 0x93), ("insert", 0x94), ("home", 0x95), ("pageup", 0x96),
   ("delete", 0x97), ("end", 0x98), ("pagedown", 0x99), ("right", 0x9A),
   ("left", 0x9B), ("down", 0x9C), ("up", 0x9D), ("space", 0x20)]

/-- The modifier names of rule R68 and the raw mask bits of rule R71, each with its MODS bit. -/
def modifierNames : List (String × Nat) :=
  [("ctrl", 0), ("ctrl_left", 1), ("ctrl_right", 2), ("shift", 3), ("shift_left", 4), ("shift_right", 5),
   ("alt", 6), ("alt_left", 7), ("alt_right", 8), ("win", 9), ("win_left", 10), ("win_right", 11),
   ("#b12", 12), ("#b13", 13), ("#b14", 14), ("#b15", 15)]

/-- The button names of rule R71. -/
def buttonNames : List (String × Button) :=
  [("none", .none), ("null", .none), ("left", .left), ("right", .right), ("center", .center)]

/-- The raw key id `#0xNN` (rule R71). -/
def rawKey : List Char → Option Byte
  | ['#', '0', 'x', h, l] => (digitsValue 16 0 [h, l]).map (BitVec.ofNat 8)
  | _ => none

/-- A key: a character literal, a key name or a raw key id (rule R71). -/
def keyOperand : Tok → Option Byte
  | .chr c => some (BitVec.ofNat 8 c.toNat)
  | .word w =>
    match keyNames.lookup w with
    | some k => some k
    | none => rawKey w.toList
  | _ => none

/-- A modifier, as its bit of the name mask (rule R71). -/
def modifierOperand : Tok → Option (BitVec 16)
  | .word w => (modifierNames.lookup w).map fun j => 1#16 <<< j
  | _ => none

/-- A button (rule R71). -/
def buttonOperand : Tok → Option Button
  | .word w => buttonNames.lookup w
  | _ => none

/-! ## Lists -/

/-- The items of `a, b, …` (rule R71). -/
def items : List Tok → Option (List Tok)
  | [] => some []
  | [t] => some [t]
  | t :: .comma :: u :: ts => (items (u :: ts)).map (t :: ·)
  | _ => none

/-- The tokens before the first `close` and those after it. -/
def upTo (close : Tok) : List Tok → Option (List Tok × List Tok)
  | [] => none
  | t :: ts => if t = close then some ([], ts) else (upTo close ts).map fun r => (t :: r.1, r.2)

/-- Each token of a list as an operand. -/
def operands {α : Type} (f : Tok → Option α) : List Tok → Option (List α)
  | [] => some []
  | t :: ts => (f t).bind fun a => (operands f ts).map (a :: ·)

/-- The entries of a request: the items, then 0 (rule R71). More than 12 are rejected. -/
def entries (bs : List Byte) : Option (Vector Byte 12) :=
  if bs.length ≤ 12 then some (Vector.ofFn fun i => bs.getD i.val 0) else none

/-- What stands after the key operands: nothing, or `, ` and a set of modifiers (rule R71). -/
def modifierSuffix : List Tok → Option (BitVec 16)
  | [] => some 0
  | .comma :: .openSet :: ts =>
    (upTo .closeSet ts).bind fun r =>
      if r.2 = [] then
        (items r.1).bind fun ms => (operands modifierOperand ms).map fun bits => bits.foldl (· ||| ·) 0
      else none
  | _ => none

/-! ## Statements -/

/-- A key and its modifiers, as in `kb.press K, M` (rule R71). -/
def keyAndModifiers : List Tok → Option (Byte × BitVec 16)
  | t :: ts => (keyOperand t).bind fun k => (modifierSuffix ts).map fun m => (k, m)
  | [] => none

/-- `kb.trigger [K0, …], M` (rule R71). -/
def assembleTrigger : List Tok → Option Instr
  | .openList :: ts =>
    (upTo .closeList ts).bind fun r => (items r.1).bind fun ks => (operands keyOperand ks).bind fun keys =>
      (entries keys).bind fun v => (modifierSuffix r.2).map fun m =>
        .kbTrigger (BitVec.ofNat 4 keys.length) m v
  | _ => none

/-- `frame A, C, [b0, …]` (rule R71). -/
def assembleFrame : List Tok → Option Instr
  | a :: .comma :: c :: .comma :: .openList :: ts =>
    (upTo .closeList ts).bind fun r =>
      if r.2 = [] then
        (items r.1).bind fun bs => (operands byteOperand bs).bind fun bytes => (entries bytes).bind fun v =>
          (byteOperand a).bind fun addr => (byteOperand c).map fun cmd =>
            .frame addr cmd (BitVec.ofNat 8 bytes.length) v
      else none
  | _ => none

/-- `ms.abs X, Y, B, W` (rule R71). -/
def assembleAbs : List Tok → Option Instr
  | [x, .comma, y, .comma, b, .comma, w] =>
    (pixelOperand x).bind fun px => (pixelOperand y).bind fun py => (buttonOperand b).bind fun btn =>
      (signedOperand w).map fun wheel => .msAbs btn wheel px py
  | _ => none

/-- `ms.rel DX, DY, B, W` (rule R71). -/
def assembleRel : List Tok → Option Instr
  | [x, .comma, y, .comma, b, .comma, w] =>
    (signedOperand x).bind fun dx => (signedOperand y).bind fun dy => (buttonOperand b).bind fun btn =>
      (signedOperand w).map fun wheel => .msRel btn wheel dx dy
  | _ => none

/-- Each character of a `kb.type` string as a key id (rule R72). DESIGN CHOICE (log entry 13): rules R71 and R100 give the
printable ASCII characters their codes, and the model gives every character with a code of at most `0xFF` its code, so that
U+0080 to U+009D type the named keys of rule R104. A character above that is rejected. -/
def textKeys (s : List Char) : Option (List Byte) :=
  if s.all (fun c => c.toNat < 256) then some (s.map fun c => BitVec.ofNat 8 c.toNat) else none

/-- The pseudo-operations of rule R72. -/
def assemblePseudo (mnemonic : String) (ts : List Tok) : Option Pseudo :=
  match mnemonic, ts with
  | "ms.press", [b] => (buttonOperand b).map .msPress
  | "ms.release", [] => some .msRelease
  | "ms.move_rel", [x, .comma, y] =>
    (signedOperand x).bind fun dx => (signedOperand y).map fun dy => .msMoveRel dx dy
  | "ms.move_abs", [x, .comma, y] =>
    (pixelOperand x).bind fun px => (pixelOperand y).map fun py => .msMoveAbs px py
  | "ms.click", [b] => (buttonOperand b).map .msClick
  | "kb.tap", ts => (keyAndModifiers ts).map fun r => .kbTap r.1 r.2
  | "kb.type", [.str s] => (textKeys s).map .kbType
  | _, _ => none

/-- The requests of one statement (rules R71 and R72). -/
def assembleStatement (mnemonic : String) (ts : List Tok) : Option (List Instr) :=
  match mnemonic, ts with
  | "kb.press", ts => (keyAndModifiers ts).map fun r => [.kbPress r.1 r.2]
  | "kb.release", [] => some [.kbRelease]
  | "kb.trigger", ts => (assembleTrigger ts).map fun i => [i]
  | "ms.abs", ts => (assembleAbs ts).map fun i => [i]
  | "ms.rel", ts => (assembleRel ts).map fun i => [i]
  | "frame", ts => (assembleFrame ts).map fun i => [i]
  | "key.lookup", [k] => (keyOperand k).map fun key => [.keyLookup key]
  | m, ts => (assemblePseudo m ts).map expandPseudo

/-- The requests of one line, none where the assembler rejects it. An empty line or a comment has no requests (rule R71). -/
def assembleLine (line : List Char) : Option (List Instr) :=
  match lexLine (.code []) line with
  | some [] => some []
  | some (.word m :: ts) => assembleStatement m ts
  | _ => none

/-- The requests of a program, one statement a line (rule R71). -/
def assemble : List (List Char) → Option (List Instr)
  | [] => some []
  | l :: ls => (assembleLine l).bind fun is => (assemble ls).map (is ++ ·)

end Sys2Proof.Machine
end

