-- ==== Sys2Proof/Machine/Listing.lean ====
section
/-! DEFINITION. The line of rule R71 that stands for a request: raw key ids, hex numbers, modifier names and raw mask bits,
laid out as the examples of rule R73. The assembler's statements are about these lines. -/

namespace Sys2Proof.Machine

/-! ## Operands -/

/-- The hex digit of a value below 16. -/
def hexDigit (d : Nat) : Char := if d < 10 then Char.ofNat (0x30 + d) else Char.ofNat (0x37 + d)

/-- The last `n` hex digits of a number. -/
def hexDigits : Nat → Nat → List Char
  | 0, _ => []
  | n + 1, v => hexDigits n (v / 16) ++ [hexDigit (v % 16)]

/-- A `0x` hex number of `n` digits. -/
def hexText (n v : Nat) : List Char := '0' :: 'x' :: hexDigits n v

/-- A 16-bit field as a number "with an optional leading `-`". -/
def signedText (v : BitVec 16) : List Char :=
  if v.toInt < 0 then '-' :: hexText 4 v.toInt.natAbs else hexText 4 v.toNat

/-- A word token. -/
def wordOf (cs : List Char) : Tok := .word (String.ofList cs)

/-- A raw key id `#0xNN`. -/
def keyToken (k : Byte) : Tok := wordOf ('#' :: hexText 2 k.toNat)

/-- A button. -/
def buttonToken : Button → Tok
  | .none => .word "none"
  | .left => .word "left"
  | .right => .word "right"
  | .center => .word "center"

/-- The names and raw bits of a mask, lowest bit first. -/
def modifierTokens (mods : BitVec 16) : List Tok :=
  (modifierNames.filter fun p => mods.getLsbD p.2).map fun p => .word p.1

/-! ## Statements -/

/-- Items with commas between them. -/
def separated : List Tok → List Tok
  | [] => []
  | [t] => [t]
  | t :: u :: ts => t :: .comma :: separated (u :: ts)

/-- The set of modifiers after the key operands. -/
def modifierSetTokens (mods : BitVec 16) : List Tok :=
  .comma :: .openSet :: separated (modifierTokens mods) ++ [.closeSet]

/-- The mnemonic of a request. -/
def mnemonicOf : Instr → String
  | .kbPress _ _ => "kb.press"
  | .kbRelease => "kb.release"
  | .kbTrigger _ _ _ => "kb.trigger"
  | .msAbs _ _ _ _ => "ms.abs"
  | .msRel _ _ _ _ => "ms.rel"
  | .frame _ _ _ _ => "frame"
  | .keyLookup _ => "key.lookup"

/-- The operands of a request. Of the entries those below the count are written. -/
def operandTokens : Instr → List Tok
  | .kbPress key mods => keyToken key :: modifierSetTokens mods
  | .kbRelease => []
  | .kbTrigger nkeys mods keys =>
    .openList :: separated ((keys.toList.take nkeys.toNat).map keyToken) ++ .closeList :: modifierSetTokens mods
  | .msAbs btn wheel x y =>
    separated [wordOf (hexText 4 x.toNat), wordOf (hexText 4 y.toNat), buttonToken btn, wordOf (signedText wheel)]
  | .msRel btn wheel dx dy =>
    separated [wordOf (signedText dx), wordOf (signedText dy), buttonToken btn, wordOf (signedText wheel)]
  | .frame addr cmd len payload =>
    wordOf (hexText 2 addr.toNat) :: .comma :: wordOf (hexText 2 cmd.toNat) :: .comma :: .openList ::
      separated ((payload.toList.take len.toNat).map fun b => wordOf (hexText 2 b.toNat)) ++ [.closeList]
  | .keyLookup key => [keyToken key]

/-! ## Text -/

/-- The characters of a token. A comma is followed by a blank. -/
def tokenText : Tok → List Char
  | .word w => w.toList
  | .chr c => if c = '\'' ∨ c = '\\' then ['\'', '\\', c, '\''] else ['\'', c, '\'']
  | .str s => '"' :: s ++ ['"']
  | .comma => [',', ' ']
  | .openList => ['[']
  | .closeList => [']']
  | .openSet => [Char.ofNat 0x7B]
  | .closeSet => [Char.ofNat 0x7D]

/-- The line of a request. -/
def requestLine (i : Instr) : List Char := (mnemonicOf i).toList ++ ' ' :: (operandTokens i).flatMap tokenText

end Sys2Proof.Machine
end

