-- ==== Sys2Proof/WellFormed.lean ====
section
/-! DEFINITION. Which instructions the assembler of rule R71 can write: a count of at most 12, and the entries
past the count 0. The core also RUNS every other decoded request (rules R69, R87, R128), so no meaning and no
statement about a step asks for this check. -/

namespace Sys2Proof

/-- The entries at positions `n` and above are 0: "Ignored bits are assembled as 0" (rule R71). -/
def unreadZero (n : Nat) (v : Vector Byte 12) : Bool := (v.toList.drop n).all (· == 0#8)

/-- The assembler's check: it "rejects … more than 12 keys or bytes" and assembles ignored bits as 0 (rule R71). -/
def Instr.wellFormed : Instr → Bool
  | .kbPress _ _ => true
  | .kbRelease => true
  | .kbTrigger nkeys _ keys => decide (nkeys.toNat ≤ 12) && unreadZero nkeys.toNat keys
  | .msAbs _ _ _ _ => true
  | .msRel _ _ _ _ => true
  | .frame _ _ len payload => decide (len.toNat ≤ 12) && unreadZero len.toNat payload
  | .keyLookup _ => true

end Sys2Proof
end

