-- ==== Sys2Proof/Safety.lean ====
section
/-! DEFINITION. The terms the statements use: what a legal RESP and a legal state are, what a frame in TX is, which bits
of a request word are read, and what one request appends. -/

namespace Sys2Proof.Machine

/-! ## Legal states -/

/-- A RESP the core can hold (rules R22, R23 and R180): reserved fields 0, STATUS at most 8, and SCAN and SHIFT 0 beside an
error. -/
abbrev RespLegal (r : BitVec 32) : Prop :=
  respReservedLow r = 0 ∧ respReservedHigh r = 0 ∧ (statusOf r).toNat ≤ 8 ∧
    (statusOf r ≠ 0 → scanOf r = 0 ∧ shiftOf r = false)

/-- The two states have one configuration: the registers and tables of rules R25 and R27 and TRIGGER_APPLIES_SHIFT. -/
abbrev SameConfig (s t : State) : Prop :=
  t.cfgScreenX = s.cfgScreenX ∧ t.cfgScreenY = s.cfgScreenY ∧ t.keyRom = s.keyRom ∧ t.modBit = s.modBit ∧
    t.btnCode = s.btnCode ∧ t.triggerAppliesShift = s.triggerAppliesShift

/-- The state is one of a well-formed instance (rules R26, R101, R106 and R121), and RESP is legal. -/
abbrev State.Inv (s : State) : Prop :=
  RespLegal s.resp ∧ screensOk s.cfgScreenX s.cfgScreenY = true ∧ modBitOk s.modBit = true ∧ keyRomOk s.keyRom = true

/-! ## Modifier names -/

/-- The four pairs of an unqualified name and its left-side form (rule R124). -/
def aliasPairs : List (ModName × ModName) :=
  [(.ctrl, .ctrlLeft), (.shift, .shiftLeft), (.alt, .altLeft), (.win, .winLeft)]

/-- The names are one, or one of the pairs of rule R124 in either order. -/
abbrev aliased (a b : ModName) : Prop := a = b ∨ (a, b) ∈ aliasPairs ∨ (b, a) ∈ aliasPairs

/-! ## Frames in TX -/

/-- A frame of one of the three commands, as the checking function `Parse` sees it (rules R84 and R88). -/
def CommandFrame (f : List Byte) : Prop :=
  ∃ addr cmd payload, parseFrame f = some (addr, cmd, payload) ∧ expectedLen cmd = some payload.length

/-- The bytes are whole frames, one after another (rule R50). -/
def WholeFrames (bs : List Byte) : Prop := ∃ fs : List (List Byte), bs = fs.flatten ∧ ∀ f ∈ fs, CommandFrame f

/-- The arrival is no request whose write will fail. -/
def Arrival.replyOk : Arrival → Bool
  | .request _ .ok => true
  | .request _ (.ioError _) => false
  | .reset => true

/-- The transport takes every write of the requests still to come. -/
abbrev State.RepliesOk (s : State) : Prop := ∀ a ∈ s.arrivals, a.replyOk = true

/-! ## Requests -/

/-- The key ids of rules R103 and R104. -/
abbrev listedKey (k : Byte) : Prop := (0x20 ≤ k.toNat ∧ k.toNat ≤ 0x7E) ∨ (0x80 ≤ k.toNat ∧ k.toNat ≤ 0x9D)

/-- The bits a format lists (rules R62 to R67), by OP. -/
def formatMask (op : BitVec 4) : Request :=
  match op.toNat with
  | 0x1 => 0x00000000_00000000_00000000_FFFFFF0F
  | 0x2 => 0x00000000_00000000_00000000_0000000F
  | 0x3 => 0xFFFFFFFF_FFFFFFFF_FFFFFFFF_FFFF00FF
  | 0x4 => 0x00000000_00000000_FFFFFFFF_FFFF030F
  | 0x5 => 0x00000000_00000000_FFFFFFFF_FFFF030F
  | 0x6 => 0xFFFFFFFF_FFFFFFFF_FFFFFFFF_FFFFFF0F
  | 0x7 => 0x00000000_00000000_00000000_0000FF0F
  | _ => 0x00000000_00000000_00000000_0000000F

/-- REQ[31:0] and the entries at i < `n`. -/
def entriesBelow (n : Nat) : Request := BitVec.ofNat 128 (2 ^ (32 + 8 * min n 12) - 1)

/-- The bits of a request that are not ignored (rule R69): those its format lists, and of the key entries and payload bytes
only those at i < NKEYS or i < LEN. -/
def readMask (w : Request) : Request :=
  match (opField w).toNat with
  | 0x3 => formatMask 0x3 &&& entriesBelow (nkeysField w).toNat
  | 0x6 => formatMask 0x6 &&& entriesBelow (byte3Field w).toNat
  | _ => formatMask (opField w)

/-- The state with the request `w` presented next, its write answered by `r`, before the arrivals `rest`. -/
def State.presenting (s : State) (w : Request) (r : WriteResult) (rest : List Arrival) : State :=
  { s with arrivals := .request w r :: rest }

/-- The bytes that the request `w` appends on a core configured as `s`, its write answered by `r`. -/
def appendedBy (s : State) (w : Request) (r : WriteResult) : List Byte :=
  match step ({ s with tx := [] }.presenting w r []) with
  | .next t => t.tx
  | .fault _ => []
  | .refused _ => []

end Sys2Proof.Machine
end

