-- ==== Sys2Proof/Certificates/Slice0/Obligations.lean ====
section
/-! DEFINITION. The statements about the model, for the provers. "Decision D<n>" names a row of
spec/92_eei_decisions.md, a choice the spec marks as its own. "Log <n>" names notes/assumptions/<n>.md. -/

open Sys2Proof Sys2Proof.Machine

/-! ## packet_framer -/

/-- Rule R80: the layout of a frame, field by field. -/
def Obligations.FrameLayout : Prop :=
  ∀ (addr cmd : Byte) (payload : List Byte), payload.length ≤ 255 →
    (buildFrame addr cmd payload).length = 6 + payload.length ∧
    (buildFrame addr cmd payload)[0]? = some 0x57 ∧
    (buildFrame addr cmd payload)[1]? = some 0xAB ∧
    (buildFrame addr cmd payload)[2]? = some addr ∧
    (buildFrame addr cmd payload)[3]? = some cmd ∧
    (∃ len : Byte, (buildFrame addr cmd payload)[4]? = some len ∧ len.toNat = payload.length) ∧
    (∀ j, j < payload.length → (buildFrame addr cmd payload)[5 + j]? = payload[j]?) ∧
    (buildFrame addr cmd payload)[5 + payload.length]? =
      some (sum8 ((buildFrame addr cmd payload).take (5 + payload.length)))

/-- Rule R81: the checksum byte is the sum of all bytes before it as unsigned integers, mod 256. In bytes, it is the
wrapping sum of the fields. It can take every value. -/
def Obligations.ChecksumIsSumOfAllPriorBytes : Prop :=
  (∀ (addr cmd : Byte) (payload : List Byte), payload.length ≤ 255 →
    ∃ sum : Byte, (buildFrame addr cmd payload)[5 + payload.length]? = some sum ∧
      sum.toNat = (((buildFrame addr cmd payload).take (5 + payload.length)).map BitVec.toNat).sum % 256 ∧
      sum = 0x57 + 0xAB + addr + cmd + BitVec.ofNat 8 payload.length + payload.foldl (· + ·) 0) ∧
  ∀ v : Byte, ∃ addr : Byte, (buildFrame addr 0x02 (List.replicate 8 0)).getLast? = some v

/-- Rule R82, which the spec derives from rule R81: the short form of the checksum, and that the order of the payload bytes
does not matter to it. -/
def Obligations.ChecksumShortForm : Prop :=
  (∀ (addr cmd : Byte) (payload : List Byte),
    (buildFrame addr cmd payload).getLast? =
      some (0x02 + addr + cmd + BitVec.ofNat 8 payload.length + payload.foldl (· + ·) 0)) ∧
  ∀ (addr cmd : Byte) (p q : List Byte), p.Perm q →
    (buildFrame addr cmd p).getLast? = (buildFrame addr cmd q).getLast?

/-- Rule R88, which the spec derives from rule R83: `Parse` accepts exactly the frames of payloads of at most 255 bytes,
and gives back what they were built from. -/
def Obligations.ParseAcceptsExactlyFrames : Prop :=
  ∀ (f : List Byte) (addr cmd : Byte) (payload : List Byte),
    parseFrame f = some (addr, cmd, payload) ↔ payload.length ≤ 255 ∧ f = buildFrame addr cmd payload

/-- Rule R87 (with rules R185, R186 and R188), FRAME's outcome in every case: an unknown command, a wrong length, a frame
the transport takes and one it does not. The order of the checks and the unchecked address and payload are decision
D20, what reaches the link on a failure is decision D21. -/
def Obligations.FrameRequestOutcome : Prop :=
  ∀ (addr cmd len : Byte) (payload : Vector Byte 12) (s : State),
    (cmd ≠ 0x02 → cmd ≠ 0x04 → cmd ≠ 0x05 →
      exec (.frame addr cmd len payload) s = .next { s with resp := 0x00000006 }) ∧
    (∀ n : Nat, (cmd = 0x02 ∧ n = 8) ∨ (cmd = 0x04 ∧ n = 7) ∨ (cmd = 0x05 ∧ n = 5) →
      (len.toNat ≠ n → exec (.frame addr cmd len payload) s = .next { s with resp := 0x00000005 }) ∧
      (len.toNat = n →
        ∀ f : List Byte,
          f = [0x57, 0xAB, addr, cmd, len] ++ payload.toList.take n ++
            [0x02 + addr + cmd + len + (payload.toList.take n).foldl (· + ·) 0] →
          (s.reply = .ok →
            exec (.frame addr cmd len payload) s = .next { s with tx := s.tx ++ f, resp := 0x00000000 }) ∧
          (∀ k : Nat, s.reply = .ioError k →
            exec (.frame addr cmd len payload) s =
              .next { s with tx := s.tx ++ f.take k, resp := 0x00000008 })))

/-- Rules R86 and R89, which the spec derives: an encoder operation whose write is taken appends nothing or one frame with
address 0, of 14, 13 or 11 bytes by its command, and never ends with FrameLengthError or CommandError. -/
def Obligations.EncoderFramesHaveFixedSizes : Prop :=
  ∀ (i : Instr) (s t : State), (∀ a c l p, i ≠ .frame a c l p) → exec i s = .next t →
    statusOf t.resp ≠ 5 ∧ statusOf t.resp ≠ 6 ∧
    (s.reply = .ok → t.tx = s.tx ∨
      ∃ (cmd : Byte) (payload : List Byte), t.tx = s.tx ++ buildFrame 0x00 cmd payload ∧
        ((cmd = 0x02 ∧ (buildFrame 0x00 cmd payload).length = 14) ∨
         (cmd = 0x04 ∧ (buildFrame 0x00 cmd payload).length = 13) ∨
         (cmd = 0x05 ∧ (buildFrame 0x00 cmd payload).length = 11)))

/-- Rule R85: a request whose write is taken appends nothing or one frame whose LEN byte counts its payload and whose length
is 6 + LEN. -/
def Obligations.EmittedFrameLengthMatchesLenByte : Prop :=
  ∀ (i : Instr) (s t : State), exec i s = .next t → s.reply = .ok → t.tx = s.tx ∨
    ∃ (f : List Byte) (len sum : Byte) (payload : List Byte), t.tx = s.tx ++ f ∧
      f[4]? = some len ∧ f.length = 6 + len.toNat ∧ payload.length = len.toNat ∧
      f = f.take 5 ++ payload ++ [sum] ∧ sum.toNat = ((f.take (5 + len.toNat)).map BitVec.toNat).sum % 256

/-! ## hid_keycode_rom -/

/-- Rule R107, where which ids are listed is decisions D7 and D8: with the default KEY_ROM exactly the key ids of rules
R103 and R104 are valid. KEY_LOOKUP, KB_PRESS and KB_TRIGGER succeed on a listed id, and raise UnknownKeyError on every
other. -/
def Obligations.ListedKeysAndOnlyThoseAreKnown : Prop :=
  ∀ (k : Byte) (s : State) (keys : Vector Byte 12), s.keyRom = defaultKeyRom → keys[0] = k →
    ((romRead s.keyRom k).valid = true ↔ listedKey k) ∧
    (listedKey k → s.reply = .ok → ∃ t u v,
      exec (.keyLookup k) s = .next t ∧ exec (.kbPress k 0) s = .next u ∧ exec (.kbTrigger 1 0 keys) s = .next v ∧
        statusOf t.resp = 0 ∧ statusOf u.resp = 0 ∧ statusOf v.resp = 0) ∧
    (¬ listedKey k →
      exec (.keyLookup k) s = .next { s with resp := 0x00000001 } ∧
      exec (.kbPress k 0) s = .next { s with resp := 0x00000001 } ∧
      exec (.kbTrigger 1 0 keys) s = .next { s with resp := 0x00000001 })

/-- Rule R108 (decision D27) with rule R22's fields (decision D5): KEY_LOOKUP returns the entry in RESP, or
UnknownKeyError. TX and everything else are unchanged, whatever the transport would do. -/
def Obligations.KeyLookupOutcome : Prop :=
  ∀ (k : Byte) (s : State),
    ((romRead s.keyRom k).valid = false → exec (.keyLookup k) s = .next { s with resp := 0x00000001 }) ∧
    ((romRead s.keyRom k).valid = true →
      ∀ v : Nat, v = (romRead s.keyRom k).shift.toNat * 65536 + (romRead s.keyRom k).scan.toNat * 256 →
        exec (.keyLookup k) s = .next { s with resp := BitVec.ofNat 32 v })

/-- Rules R22 and R23 (decision D5): what the requester reads from RESP after an error, and after a lookup. -/
def Obligations.RespFieldsReadBack : Prop :=
  (∀ e : Err, statusOf (respOfError e) = e.code ∧ scanOf (respOfError e) = 0 ∧ shiftOf (respOfError e) = false ∧
    respReservedLow (respOfError e) = 0 ∧ respReservedHigh (respOfError e) = 0) ∧
  ∀ (scan : Byte) (shift : Bool), statusOf (respOfLookup scan shift) = 0 ∧ scanOf (respOfLookup scan shift) = scan ∧
    shiftOf (respOfLookup scan shift) = shift ∧ respReservedLow (respOfLookup scan shift) = 0 ∧
    respReservedHigh (respOfLookup scan shift) = 0

/-- Rule R106: every instance the model builds (log 11) looks up `a` as scan code `0x04` unshifted and `A` as the same scan
code shifted. The spec derives the entry of `A`. -/
def Obligations.LookupOfLetterAIsPinned : Prop :=
  ∀ (p : Instance) (s : State), powerOn p = .next s →
    exec (.keyLookup 0x61) s = .next { s with resp := 0x00000400 } ∧
    exec (.keyLookup 0x41) s = .next { s with resp := 0x00010400 }

/-- Rules R102 and R103 on the default KEY_ROM, whose scan codes the spec takes from general knowledge (G1): the letters and
digits run in HID order, and an upper-case letter is the shifted form of its lower-case letter's key. -/
def Obligations.LetterAndDigitScanCodes : Prop :=
  (∀ j : Nat, j < 26 →
    romRead defaultKeyRom (BitVec.ofNat 8 (0x61 + j)) = romPlain (BitVec.ofNat 8 (0x04 + j)) ∧
    romRead defaultKeyRom (BitVec.ofNat 8 (0x41 + j)) = romShifted (BitVec.ofNat 8 (0x04 + j))) ∧
  (∀ j : Nat, j < 9 → romRead defaultKeyRom (BitVec.ofNat 8 (0x31 + j)) = romPlain (BitVec.ofNat 8 (0x1E + j))) ∧
  romRead defaultKeyRom 0x30 = romPlain 0x27

/-- Rules R103 and R104 on the default KEY_ROM, whose scan codes and shift flags the spec takes from general knowledge (G1,
decision D8, log 8): space, the punctuation characters and the 30 named keys `enter` to `up`. -/
def Obligations.PunctuationAndNamedKeyScanCodes : Prop :=
  romRead defaultKeyRom 0x20 = romPlain 0x2C ∧
  (∀ row ∈ [(0x2D, 0x2D), (0x3D, 0x2E), (0x5B, 0x2F), (0x5D, 0x30), (0x5C, 0x31), (0x3B, 0x33), (0x27, 0x34), (0x60, 0x35),
      (0x2C, 0x36), (0x2E, 0x37), ((0x2F : Byte), (0x38 : Byte))],
    romRead defaultKeyRom row.1 = { valid := true, scan := row.2, shift := false }) ∧
  (∀ row ∈ [(0x21, 0x1E), (0x40, 0x1F), (0x23, 0x20), (0x24, 0x21), (0x25, 0x22), (0x5E, 0x23), (0x26, 0x24), (0x2A, 0x25),
      (0x28, 0x26), (0x29, 0x27), (0x5F, 0x2D), (0x2B, 0x2E), (0x7B, 0x2F), (0x7D, 0x30), (0x7C, 0x31), (0x3A, 0x33),
      (0x22, 0x34), (0x7E, 0x35), (0x3C, 0x36), (0x3E, 0x37), ((0x3F : Byte), (0x38 : Byte))],
    romRead defaultKeyRom row.1 = { valid := true, scan := row.2, shift := true }) ∧
  (∀ j : Nat, j < 4 → romRead defaultKeyRom (BitVec.ofNat 8 (0x80 + j)) = romPlain (BitVec.ofNat 8 (0x28 + j))) ∧
  ∀ j : Nat, j < 26 → romRead defaultKeyRom (BitVec.ofNat 8 (0x84 + j)) = romPlain (BitVec.ofNat 8 (0x39 + j))

/-! ## keyboard_encoder -/

/-- Rule R122: a bit of the modifier byte is set exactly when some name of the set has that MOD_BIT, for every table. The
empty set gives 0. -/
def Obligations.ModifierByteIsOrOfNamedBits : Prop :=
  (∀ (t : Vector (BitVec 3) 12) (m : BitVec 12) (b : Nat),
    (modByte t m).getLsbD b = true ↔ ∃ n : ModName, m.getLsbD (modPos n).val = true ∧ (modBitOf t n).toNat = b) ∧
  ∀ t : Vector (BitVec 3) 12, modByte t 0 = 0

/-- Rule R124, which the spec derives: in every instance the model builds (log 11), two names share a bit exactly when they
are one name or one of the four pairs of an unqualified name and its left-side form. With the default MOD_BIT (G2) every
modifier byte is reachable. -/
def Obligations.ModifierNamesShareBitsOnlyByAliasing : Prop :=
  (∀ (p : Instance) (s : State), powerOn p = .next s →
    ∀ a b : ModName, modBitOf s.modBit a = modBitOf s.modBit b ↔ aliased a b) ∧
  ∀ v : Byte, ∃ m : BitVec 12, modByte defaultModBit m = v

/-- Rules R68 (decision D9) and R121 (decision D10, general knowledge G2, log 8): each name's position in MODS, its bit in the
default MOD_BIT, and the modifier byte of a set of that name alone. -/
def Obligations.DefaultModifierBits : Prop :=
  ∀ row ∈ [(ModName.ctrl, 0, 0x01), (.ctrlLeft, 1, 0x01), (.ctrlRight, 2, 0x10), (.shift, 3, 0x02), (.shiftLeft, 4, 0x02),
      (.shiftRight, 5, 0x20), (.alt, 6, 0x04), (.altLeft, 7, 0x04), (.altRight, 8, 0x40), (.win, 9, 0x08),
      (.winLeft, 10, 0x08), (.winRight, 11, (0x80 : Byte))],
    (modPos row.1).val = row.2.1 ∧ 1#8 <<< (modBitOf defaultModBit row.1).toNat = row.2.2 ∧
      modByte defaultModBit (1#12 <<< row.2.1) = row.2.2

/-- Rule R125, which the spec derives: the implicit shift changes nothing in a set that names `shift` or `shift_left`, in
every instance the model builds (log 11). Elsewhere it sets exactly the bit of `shift`. -/
def Obligations.ImplicitShiftIsDeduplicated : Prop :=
  ∀ (p : Instance) (s : State), powerOn p = .next s → ∀ m : BitVec 12,
    (m.getLsbD (modPos .shift).val = true ∨ m.getLsbD (modPos .shiftLeft).val = true →
      modByteWith s.modBit m true = modByte s.modBit m) ∧
    (∀ b : Nat, (modByteWith s.modBit m true).getLsbD b = true ↔
      (modByte s.modBit m).getLsbD b = true ∨ b = (modBitOf s.modBit .shift).toNat)

/-- Rule R129 (decision D17): `Dedup` keeps the entries that no earlier entry equals, in order. Each id is kept once and
none is lost. -/
def Obligations.DedupKeepsFirstOccurrences : Prop :=
  ∀ ks : List Byte,
    dedup ks = (ks.zipIdx.filter fun p => !(ks.take p.2).contains p.1).map (·.1) ∧
    (dedup ks).Nodup ∧ ∀ k, k ∈ dedup ks ↔ k ∈ ks

/-- Rule R126, KB_PRESS's outcome in every case, the frame byte by byte. The order of its two checks is decision D6, what
reaches the link on a failure is decision D21. -/
def Obligations.KbPressOutcome : Prop :=
  ∀ (key : Byte) (mods : BitVec 16) (s : State),
    ((romRead s.keyRom key).valid = false →
      exec (.kbPress key mods) s = .next { s with resp := 0x00000001 }) ∧
    ((romRead s.keyRom key).valid = true → mods.extractLsb' 12 4 ≠ 0 →
      exec (.kbPress key mods) s = .next { s with resp := 0x00000002 }) ∧
    ((romRead s.keyRom key).valid = true → mods.extractLsb' 12 4 = 0 →
      ∀ (mb sc : Byte) (f : List Byte),
        mb = (modByte s.modBit (mods.extractLsb' 0 12) |||
          if (romRead s.keyRom key).shift then 1#8 <<< (modBitOf s.modBit .shift).toNat else 0) →
        sc = (romRead s.keyRom key).scan →
        f = [0x57, 0xAB, 0x00, 0x02, 0x08, mb, 0x00, sc, 0x00, 0x00, 0x00, 0x00, 0x00, 0x0C + mb + sc] →
        (s.reply = .ok →
          exec (.kbPress key mods) s = .next { s with tx := s.tx ++ f, resp := 0x00000000 }) ∧
        (∀ k : Nat, s.reply = .ioError k →
          exec (.kbPress key mods) s = .next { s with tx := s.tx ++ f.take k, resp := 0x00000008 }))

/-- Rule R127, KB_RELEASE's outcome: the same 14 bytes every time. What reaches the link on a failure is decision D21. -/
def Obligations.KbReleaseOutcome : Prop :=
  ∀ (s : State) (f : List Byte),
    f = [0x57, 0xAB, 0x00, 0x02, 0x08, 0x00, 0x00, 0x00, 0x00, 0x00, 0x00, 0x00, 0x00, 0x0C] →
    (s.reply = .ok → exec .kbRelease s = .next { s with tx := s.tx ++ f, resp := 0x00000000 }) ∧
    (∀ k : Nat, s.reply = .ioError k →
      exec .kbRelease s = .next { s with tx := s.tx ++ f.take k, resp := 0x00000008 })

/-- Rule R128, KB_TRIGGER's outcome in every case, its checks in order, the frame byte by byte. The modifier names are
counted over all 16 MODS bits. The order of the checks is decision D6, the counts are decisions D16 and D19, the slot order
is decision D17, the parameter for the implicit shift is decision D18, what reaches the link on a failure is
decision D21. -/
def Obligations.KbTriggerOutcome : Prop :=
  ∀ (nkeys : BitVec 4) (mods : BitVec 16) (keys : Vector Byte 12) (s : State) (dk : List Byte) (es : List RomEntry)
    (names : Nat),
    dk = dedup (keys.toList.take nkeys.toNat) → es = dk.map (romRead s.keyRom) →
    names = (Finset.univ.filter fun j : Fin 16 => mods.getLsbD j.val = true).card →
    (12 < nkeys.toNat → exec (.kbTrigger nkeys mods keys) s = .next { s with resp := 0x00000007 }) ∧
    (nkeys.toNat ≤ 12 → 6 < dk.length ∨ 8 < names →
      exec (.kbTrigger nkeys mods keys) s = .next { s with resp := 0x00000003 }) ∧
    (nkeys.toNat ≤ 12 → dk.length ≤ 6 → names ≤ 8 → mods.extractLsb' 12 4 ≠ 0 →
      exec (.kbTrigger nkeys mods keys) s = .next { s with resp := 0x00000002 }) ∧
    (nkeys.toNat ≤ 12 → dk.length ≤ 6 → names ≤ 8 → mods.extractLsb' 12 4 = 0 →
      (∃ e ∈ es, e.valid = false) →
      exec (.kbTrigger nkeys mods keys) s = .next { s with resp := 0x00000001 }) ∧
    (nkeys.toNat ≤ 12 → dk.length ≤ 6 → names ≤ 8 → mods.extractLsb' 12 4 = 0 →
      (∀ e ∈ es, e.valid = true) →
      ∀ (mb : Byte) (slots f : List Byte),
        mb = (modByte s.modBit (mods.extractLsb' 0 12) |||
          if s.triggerAppliesShift = true ∧ ∃ e ∈ es, e.shift = true
            then 1#8 <<< (modBitOf s.modBit .shift).toNat else 0) →
        slots = es.map (·.scan) ++ List.replicate (6 - dk.length) 0x00 →
        f = [0x57, 0xAB, 0x00, 0x02, 0x08, mb, 0x00] ++ slots ++ [0x0C + mb + slots.foldl (· + ·) 0] →
        slots.length = 6 ∧
        (s.reply = .ok →
          exec (.kbTrigger nkeys mods keys) s = .next { s with tx := s.tx ++ f, resp := 0x00000000 }) ∧
        (∀ k : Nat, s.reply = .ioError k →
          exec (.kbTrigger nkeys mods keys) s = .next { s with tx := s.tx ++ f.take k, resp := 0x00000008 }))

/-- From rules R126, R127 and R128: a KB_TRIGGER of one unshifted key is the KB_PRESS of that key where both pass their
checks, and a KB_TRIGGER of no key and no modifier is KB_RELEASE. -/
def Obligations.TriggerOfOneKeyIsPress : Prop :=
  (∀ (key : Byte) (mods : BitVec 16) (keys : Vector Byte 12) (s : State),
    keys[0] = key → (romRead s.keyRom key).shift = false →
      (Finset.univ.filter fun j : Fin 16 => mods.getLsbD j.val = true).card ≤ 8 →
      ((romRead s.keyRom key).valid = true ∨ mods.extractLsb' 12 4 = 0) →
      exec (.kbTrigger 1 mods keys) s = exec (.kbPress key mods) s) ∧
  ∀ (keys : Vector Byte 12) (s : State), exec (.kbTrigger 0 0 keys) s = exec .kbRelease s

/-! ## mouse_encoder -/

/-- Rule R152: the wheel byte of every integer. -/
def Obligations.WheelByteEncoding : Prop :=
  ∀ w : Int,
    (w < -127 ∨ 127 < w → wheelByte w = none) ∧
    (0 ≤ w → w ≤ 127 → ∃ b, wheelByte w = some b ∧ (b.toNat : Int) = w) ∧
    (-127 ≤ w → w < 0 → ∃ b, wheelByte w = some b ∧ (b.toNat : Int) = 256 + w) ∧
    wheelByte w ≠ some 0x80 ∧ (-127 ≤ w → w ≤ 127 → wheelByte w = some (byte8 w))

/-- Rule R153, where -128 is decision D13: the delta byte of every integer is its two's complement in one byte. -/
def Obligations.DeltaByteEncoding : Prop :=
  ∀ d : Int,
    (d < -127 ∨ 127 < d → deltaByte d = none) ∧
    (-127 ≤ d → d ≤ 127 → ∃ b, deltaByte d = some b ∧ b.toInt = d) ∧
    deltaByte d ≠ some 0x80

/-- Rule R154: the scaling is the exact quotient rounded down, and its product fits 28 bits. -/
def Obligations.ScaleRoundsDown : Prop :=
  ∀ p s : BitVec 16, 1 ≤ s.toNat →
    scale p s * s.toNat ≤ 4096 * p.toNat ∧ 4096 * p.toNat < (scale p s + 1) * s.toNat ∧ 4096 * p.toNat < 2 ^ 28

/-- Rules R155 (decision D14) and R162, which the spec derives: the scaling laws. -/
def Obligations.ScaleLaws : Prop :=
  (∀ s : BitVec 16, scale 0 s = 0) ∧
  (∀ p q s : BitVec 16, p.toNat ≤ q.toNat → scale p s ≤ scale q s) ∧
  (∀ p s : BitVec 16, 1 ≤ s.toNat → (p.toNat < s.toNat ↔ scale p s ≤ 4095)) ∧
  (∀ p : BitVec 16, scale p 4096 = p.toNat) ∧
  (∀ p s : BitVec 16, 1 ≤ s.toNat → s.toNat = 2 * p.toNat → scale p s = 2048)

/-- Rule R158, MS_ABS's outcome in every case, the frame byte by byte. The bounds of the coordinates are decision D14, what
reaches the link on a failure is decision D21. -/
def Obligations.MsAbsOutcome : Prop :=
  ∀ (btn : Button) (wheel x y : BitVec 16) (s : State),
    (wheel.toInt < -127 ∨ 127 < wheel.toInt →
      exec (.msAbs btn wheel x y) s = .next { s with resp := 0x00000004 }) ∧
    (s.cfgScreenX.toNat ≤ x.toNat ∨ s.cfgScreenY.toNat ≤ y.toNat →
      exec (.msAbs btn wheel x y) s = .next { s with resp := 0x00000004 }) ∧
    (-127 ≤ wheel.toInt → wheel.toInt ≤ 127 → x.toNat < s.cfgScreenX.toNat → y.toNat < s.cfgScreenY.toNat →
      ∀ (xs ys : Nat) (b wb : Byte) (f : List Byte),
        xs = 4096 * x.toNat / s.cfgScreenX.toNat → ys = 4096 * y.toNat / s.cfgScreenY.toNat →
        b = btnByte s.btnCode btn → wb = BitVec.ofInt 8 wheel.toInt →
        f = [0x57, 0xAB, 0x00, 0x04, 0x07, 0x02, b, BitVec.ofNat 8 xs, BitVec.ofNat 8 (xs / 256),
          BitVec.ofNat 8 ys, BitVec.ofNat 8 (ys / 256), wb,
          0x0F + b + BitVec.ofNat 8 xs + BitVec.ofNat 8 (xs / 256) + BitVec.ofNat 8 ys + BitVec.ofNat 8 (ys / 256) + wb] →
        (s.reply = .ok →
          exec (.msAbs btn wheel x y) s = .next { s with tx := s.tx ++ f, resp := 0x00000000 }) ∧
        (∀ k : Nat, s.reply = .ioError k →
          exec (.msAbs btn wheel x y) s = .next { s with tx := s.tx ++ f.take k, resp := 0x00000008 }))

/-- Rules R43, R155 (decision D14) and R156: in the frame of an accepted MS_ABS, bytes 7 and 8, and 9 and 10, are the scaled
coordinates little-endian, and both are at most 4095. -/
def Obligations.AbsoluteCoordinatesFitTheGrid : Prop :=
  ∀ (btn : Button) (wheel x y : BitVec 16) (s t : State), s.reply = .ok →
    exec (.msAbs btn wheel x y) s = .next t → statusOf t.resp = 0 →
    ∃ xl xh yl yh : Byte, ∃ f : List Byte, t.tx = s.tx ++ f ∧
      f[7]? = some xl ∧ f[8]? = some xh ∧ f[9]? = some yl ∧ f[10]? = some yh ∧
      xl.toNat + 256 * xh.toNat = scale x s.cfgScreenX ∧ yl.toNat + 256 * yh.toNat = scale y s.cfgScreenY ∧
      scale x s.cfgScreenX ≤ 4095 ∧ scale y s.cfgScreenY ≤ 4095

/-- Rule R159, MS_REL's outcome in every case, the frame byte by byte. That -128 is out of range is decision D13, what
reaches the link on a failure is decision D21. -/
def Obligations.MsRelOutcome : Prop :=
  ∀ (btn : Button) (wheel dx dy : BitVec 16) (s : State),
    ((dx.toInt < -127 ∨ 127 < dx.toInt) ∨ (dy.toInt < -127 ∨ 127 < dy.toInt) ∨
        (wheel.toInt < -127 ∨ 127 < wheel.toInt) →
      exec (.msRel btn wheel dx dy) s = .next { s with resp := 0x00000004 }) ∧
    (-127 ≤ dx.toInt → dx.toInt ≤ 127 → -127 ≤ dy.toInt → dy.toInt ≤ 127 →
      -127 ≤ wheel.toInt → wheel.toInt ≤ 127 →
      ∀ (b xb yb wb : Byte) (f : List Byte),
        b = btnByte s.btnCode btn → xb = BitVec.ofInt 8 dx.toInt → yb = BitVec.ofInt 8 dy.toInt →
        wb = BitVec.ofInt 8 wheel.toInt →
        f = [0x57, 0xAB, 0x00, 0x05, 0x05, 0x01, b, xb, yb, wb, 0x0D + b + xb + yb + wb] →
        (s.reply = .ok →
          exec (.msRel btn wheel dx dy) s = .next { s with tx := s.tx ++ f, resp := 0x00000000 }) ∧
        (∀ k : Nat, s.reply = .ioError k →
          exec (.msRel btn wheel dx dy) s = .next { s with tx := s.tx ++ f.take k, resp := 0x00000008 }))

/-- Rules R25 (decision D15) and R160: no operation but MS_ABS reads the screen size. -/
def Obligations.OnlyMsAbsReadsTheScreen : Prop :=
  ∀ (i : Instr) (s : State) (x y : BitVec 16), (∀ b w px py, i ≠ .msAbs b w px py) →
    ∃ t, exec i s = .next t ∧
      exec i { s with cfgScreenX := x, cfgScreenY := y } = .next { t with cfgScreenX := x, cfgScreenY := y }

/-- Rule R151 on the default BTN_CODE: none and left are the source's, right and center the spec's general knowledge (G3). -/
def Obligations.DefaultButtonCodes : Prop :=
  btnByte defaultBtnCode .none = 0x00 ∧ btnByte defaultBtnCode .left = 0x01 ∧
    btnByte defaultBtnCode .right = 0x02 ∧ btnByte defaultBtnCode .center = 0x04

/-! ## Errors, the transport and RESP -/

/-- Rule R189: an operation that ends with an error other than TransportError changes nothing but RESP, which is the code.
So does a step that takes a request word, with or without an operation, besides what accepting any request does (rule R21):
the request has left the port (log 1), the transport's answer to it is settled (log 2) and the step index has advanced
(log 6). -/
def Obligations.ErrorsChangeOnlyResp : Prop :=
  (∀ (i : Instr) (s t : State), exec i s = .next t → statusOf t.resp ≠ 0 → statusOf t.resp ≠ 8 →
    t = { s with resp := (statusOf t.resp).zeroExtend 32 }) ∧
  ∀ (s t : State) (w : Request) (r : WriteResult) (rest : List Arrival), s.arrivals = .request w r :: rest →
    step s = .next t → statusOf t.resp ≠ 0 → statusOf t.resp ≠ 8 →
    t = { s with resp := (statusOf t.resp).zeroExtend 32, arrivals := rest, reply := r, stepIndex := s.stepIndex + 1 }

/-- Rules R46 and R188 (decision D21): where a request would have sent the frame `f`, a failing write ends it with
TransportError, and TX gains the prefix of `f` that reached the link, which can be any prefix. -/
def Obligations.TransportFailureLeavesAPrefix : Prop :=
  ∀ (i : Instr) (s t : State) (f : List Byte), exec i { s with reply := .ok } = .next t → t.tx = s.tx ++ f → f ≠ [] →
    (∀ k : Nat, exec i { s with reply := .ioError k } =
      .next { s with reply := .ioError k, tx := s.tx ++ f.take k, resp := 0x00000008 }) ∧
    ∀ g : List Byte, g <+: f → ∃ (k : Nat) (u : State), exec i { s with reply := .ioError k } = .next u ∧
      u.tx = s.tx ++ g

/-- Rules R24 and R44, derived from rule R23: STATUS tells whether a frame was sent. OK, on an operation other than
KEY_LOOKUP, means that one whole frame of a known command was appended. An error other than TransportError means that
nothing was. -/
def Obligations.StatusTellsWhetherAFrameWasSent : Prop :=
  ∀ (i : Instr) (s t : State), exec i s = .next t →
    (statusOf t.resp = 0 → (∀ k, i ≠ .keyLookup k) → ∃ f, t.tx = s.tx ++ f ∧ CommandFrame f) ∧
    (statusOf t.resp ≠ 0 → statusOf t.resp ≠ 8 → t.tx = s.tx) ∧
    ((∃ k, i = .keyLookup k) → t.tx = s.tx ∧ statusOf t.resp ≠ 8)

/-- Rules R189 and R190 (decision D5): every operation completes in every state. No error of the spec stops the machine. -/
def Obligations.EveryOperationCompletes : Prop :=
  ∀ (i : Instr) (s : State), ∃ t, exec i s = .next t ∧ RespLegal t.resp

/-- Rules R23, R29 and R47: an operation changes RESP and TX and nothing else, TX only at its end, and KEY_LOOKUP not
at all. -/
def Obligations.OperationsChangeOnlyTxAndResp : Prop :=
  ∀ (i : Instr) (s t : State), exec i s = .next t →
    (∃ bs, t.tx = s.tx ++ bs ∧ (∀ k, i = .keyLookup k → bs = [])) ∧ SameConfig s t ∧
    t.arrivals = s.arrivals ∧ t.reply = s.reply ∧ t.stepIndex = s.stepIndex

/-- Rules R29, R130 and R160 (the encoders have no state) for what an operation appends, with rules R23 and R24 (decision D5)
for RESP: both depend on the request, the configuration and the transport's answer (log 2) alone, not on what came
before. -/
def Obligations.OutcomeIndependentOfHistory : Prop :=
  ∀ (i : Instr) (s s' : State), SameConfig s s' → s'.reply = s.reply →
    ∃ (t t' : State) (bs : List Byte), exec i s = .next t ∧ exec i s' = .next t' ∧
      t.tx = s.tx ++ bs ∧ t'.tx = s'.tx ++ bs ∧ t'.resp = t.resp

/-! ## Requests and steps -/

/-- Rule R27 for KEY_ROM, MOD_BIT and BTN_CODE, rule R25 (decision D15) for the screen size, rule R9 (log 9) for
TRIGGER_APPLIES_SHIFT: no step, whatever arrives, changes them. That a reset keeps them is log 12. -/
def Obligations.NoStepWritesTheConfiguration : Prop :=
  ∀ s t : State, step s = .next t → SameConfig s t

/-- Rules R7 and R21 (decision D1) with the arrivals of log 1: on a well-formed instance a request that decodes is executed
as that operation, after it has left the port, the transport's answer to it is settled and the step index has advanced by
one. -/
def Obligations.StepRunsTheDecodedRequest : Prop :=
  ∀ (s : State) (w : Request) (r : WriteResult) (rest : List Arrival) (i : Instr),
    screensOk s.cfgScreenX s.cfgScreenY = true → s.arrivals = .request w r :: rest → decode w = .ok i →
    step s = exec i { s with arrivals := rest, reply := r, stepIndex := s.stepIndex + 1 }

/-- Rules R70 and R187 (decision D3): exactly the words with OP `0x0` or `0x8` to `0xF` have no operation, and such a request
ends with IllegalRequest and no other effect. -/
def Obligations.UnassignedOperationsAreIllegal : Prop :=
  ∀ w : Request,
    ((∃ i, decode w = .ok i) ↔ 1 ≤ (w.extractLsb' 0 4).toNat ∧ (w.extractLsb' 0 4).toNat ≤ 7) ∧
    ((w.extractLsb' 0 4).toNat = 0 ∨ 8 ≤ (w.extractLsb' 0 4).toNat →
      ∀ (s : State) (r : WriteResult) (rest : List Arrival),
        screensOk s.cfgScreenX s.cfgScreenY = true → s.arrivals = .request w r :: rest →
        step s = .next
          { s with resp := 0x00000007, arrivals := rest, reply := r, stepIndex := s.stepIndex + 1 })

/-- Rule R69 (decision D4): two requests that differ only in ignored bits have identical effects. -/
def Obligations.IgnoredBitsHaveNoEffect : Prop :=
  ∀ w w' : Request, w &&& readMask w = w' &&& readMask w →
    ∀ (s : State) (r : WriteResult) (rest : List Arrival),
      step (s.presenting w r rest) = step (s.presenting w' r rest)

/-- Rule R200 (decision D25) and log 5: with nothing presented the core stays as it is. -/
def Obligations.IdleCoreHoldsItsState : Prop :=
  ∀ s : State, screensOk s.cfgScreenX s.cfgScreenY = true → s.arrivals = [] → step s = .next s

/-- Rules R21, R28 and R50, which rest on decisions D1 and D21: each request takes exactly one step, in arrival order,
whatever its outcome, and only appends to TX. -/
def Obligations.OneStepPerRequest : Prop :=
  ∀ (s : State) (w : Request) (r : WriteResult) (rest : List Arrival),
    screensOk s.cfgScreenX s.cfgScreenY = true → s.arrivals = .request w r :: rest →
    ∃ t, step s = .next t ∧ t.arrivals = rest ∧ t.stepIndex = s.stepIndex + 1 ∧ s.tx <+: t.tx ∧ SameConfig s t

/-- Rule R50, points (1) to (3): requests take effect in arrival order, and the bytes in TX are the requests' bytes, each
what that request alone appends, contiguous and in arrival order. The step index counts the requests (rule R21, log 6), and
RESP is the last request's (rule R23, decision D5). -/
def Obligations.RunConcatenatesRequestsInOrder : Prop :=
  ∀ (ws : List (Request × WriteResult)) (s : State), screensOk s.cfgScreenX s.cfgScreenY = true →
    s.arrivals = ws.map (fun p => Arrival.request p.1 p.2) →
    ∃ t : State, Host.Core.run Sys2Proof.core ws.length s = .next t ∧ t.arrivals = [] ∧
      t.stepIndex = s.stepIndex + ws.length ∧ SameConfig s t ∧
      t.tx = s.tx ++ (ws.map fun p => appendedBy s p.1 p.2).flatten ∧
      ∀ p ∈ ws.getLast?, ∃ u, step (s.presenting p.1 p.2 []) = .next u ∧ t.resp = u.resp

/-! ## Reset and instances -/

/-- Rules R30, R210 and R211 (decision D24): reset leaves RESP = 0, TX empty and no request in progress (in the model: none on
the port, log 1), and the configuration of the instance, TRIGGER_APPLIES_SHIFT among it (rule R9, log 9). A core that is
reset later gets there again, and keeps its configuration and what is still to arrive (log 12). The screen of `State.reset`
is log 4's choice and not stated. -/
def Obligations.ResetState : Prop :=
  (∀ p : Instance,
    (State.ofInstance p).resp = 0 ∧ (State.ofInstance p).tx = [] ∧
    (State.ofInstance p).cfgScreenX = p.screenX ∧ (State.ofInstance p).cfgScreenY = p.screenY ∧
    (State.ofInstance p).keyRom = p.keyRom ∧ (State.ofInstance p).modBit = p.modBit ∧
    (State.ofInstance p).btnCode = p.btnCode ∧ (State.ofInstance p).triggerAppliesShift = p.triggerAppliesShift ∧
    (State.ofInstance p).arrivals = []) ∧
  ∀ (s : State) (rest : List Arrival), screensOk s.cfgScreenX s.cfgScreenY = true → s.arrivals = .reset :: rest →
    ∃ t, step s = .next t ∧ t.resp = 0 ∧ t.tx = [] ∧ t.arrivals = rest ∧ SameConfig s t

/-- Rule R26 (decision D15): an instance with a zero resolution is never built, and no core with one takes a step. Every
other instance that keeps the rules of log 11 is built, and then every step completes. -/
def Obligations.ZeroResolutionIsRefused : Prop :=
  (∀ p : Instance, p.screenX = 0 ∨ p.screenY = 0 → powerOn p = .refused .zeroResolution) ∧
  (∀ s : State, s.cfgScreenX = 0 ∨ s.cfgScreenY = 0 → step s = .refused .zeroResolution) ∧
  (∀ p : Instance, p.screenX ≠ 0 → p.screenY ≠ 0 → modBitOk p.modBit = true → keyRomOk p.keyRom = true →
    p.requesters ≠ .unarbitrated → powerOn p = .next (State.ofInstance p)) ∧
  ∀ s : State, s.cfgScreenX ≠ 0 → s.cfgScreenY ≠ 0 → ∃ t, step s = .next t

/-- Rules R221, R121, R101 and R106 (log 11): of the instances with nonzero screen sizes, `powerOn` refuses by name one whose
MOD_BIT lets names share bits other than by rule R124's pairs, one whose KEY_ROM has an invalid entry that is not zero or
another entry for `a` or `A`, and one with several requesters and no arbiter. The first two refusals are log 11's choice. -/
def Obligations.InstancesOutsideTheRulesAreRefused : Prop :=
  ∀ p : Instance, p.screenX ≠ 0 → p.screenY ≠ 0 →
    ((∃ a b : ModName, ¬ (modBitOf p.modBit a = modBitOf p.modBit b ↔ aliased a b)) →
      powerOn p = .refused .badModBit) ∧
    (modBitOk p.modBit = true →
      ((∃ k : Byte, (romRead p.keyRom k).valid = false ∧
          ((romRead p.keyRom k).scan ≠ 0 ∨ (romRead p.keyRom k).shift = true)) ∨
        romRead p.keyRom 0x61 ≠ { valid := true, scan := 0x04, shift := false } ∨
        romRead p.keyRom 0x41 ≠ { valid := true, scan := 0x04, shift := true }) →
      powerOn p = .refused .badKeyRom) ∧
    (modBitOk p.modBit = true → keyRomOk p.keyRom = true → p.requesters = .unarbitrated →
      powerOn p = .refused .unarbitratedRequesters)

/-- The invariant holds after reset of every instance the model builds (log 11), and at `State.reset`. -/
def Obligations.ResetMeetsTheInvariant : Prop :=
  (∀ (p : Instance) (s : State), powerOn p = .next s → s.Inv ∧ WholeFrames s.tx ∧ s.RepliesOk) ∧
  State.reset.Inv ∧ WholeFrames State.reset.tx ∧ State.reset.RepliesOk

/-- Every step keeps the invariant: RESP stays legal (rules R22, R23 and R180, decision D5), and the instance
well-formed (rules R26, R101, R106 and R121). -/
def Obligations.StepKeepsTheInvariant : Prop :=
  ∀ s t : State, s.Inv → step s = .next t → t.Inv

/-- Rules R47 and R50: where the transport takes every write, TX is at every moment a sequence of whole frames of the three
commands, each with a correct length and checksum. -/
def Obligations.StepKeepsWholeFrames : Prop :=
  ∀ s t : State, s.RepliesOk → WholeFrames s.tx → step s = .next t → t.RepliesOk ∧ WholeFrames t.tx

/-! ## Encoding -/

/-- Rules R60 to R68 (decisions D2 and D3): decoding the word of an instruction gives it back, for every operation and every
operand value. -/
def Obligations.DecodeInvertsEncode : Prop := ∀ i : Instr, decode (encode i) = .ok i

/-- Rules R62 to R67 and R69 (decisions D2 and D4): encoding what a word decodes to gives the word back with its ignored
bits cleared. -/
def Obligations.EncodeInvertsDecode : Prop :=
  ∀ (w : Request) (i : Instr), decode w = .ok i → encode i = w &&& formatMask (w.extractLsb' 0 4)

/-- Rule R73, which the spec derives: its encoding examples decode to what they stand for. -/
def Obligations.SpecExamplesDecode : Prop :=
  decode 0x00000000_00000000_00000000_00006101 = .ok (.kbPress 0x61 0) ∧
  decode 0x00000000_00000000_00000000_00016101 = .ok (.kbPress 0x61 0x0001) ∧
  decode 0x00000000_00000000_00000000_00000002 = .ok .kbRelease ∧
  decode 0x00000000_00000000_00006261_00820023 =
    .ok (.kbTrigger 2 0x0082 #v[0x61, 0x62, 0, 0, 0, 0, 0, 0, 0, 0, 0, 0]) ∧
  decode 0x00000000_00000000_021C03C0_00000104 = .ok (.msAbs .left 0 960 540) ∧
  decode 0x00000000_00000000_0005FFF6_FFFD0005 = .ok (.msRel .none 0xFFFD 0xFFF6 0x0005) ∧
  decode 0x00000000_000000FD_05F60001_05050006 =
    .ok (.frame 0x00 0x05 0x05 #v[0x01, 0x00, 0xF6, 0x05, 0xFD, 0, 0, 0, 0, 0, 0, 0]) ∧
  decode 0x00000000_00000000_00000000_00004107 = .ok (.keyLookup 0x41)

/-! ## Pseudo-operations and the assembler -/

/-- Rule R72: on a well-formed instance, `kb.tap` of a known key with known modifiers sends the press and then the all-up
report, and `ms.click` sends the button held and then cleared, both with zero motion. That the wheel is 0 is decision D26. -/
def Obligations.TapAndClickSendTwoFrames : Prop :=
  (∀ (key : Byte) (mods : BitVec 16) (s : State), screensOk s.cfgScreenX s.cfgScreenY = true →
    (romRead s.keyRom key).valid = true → mods.extractLsb' 12 4 = 0 →
    s.arrivals = okRequests (expandPseudo (.kbTap key mods)) →
    ∃ t : State, Host.Core.run Sys2Proof.core 2 s = .next t ∧ t.arrivals = [] ∧ t.resp = 0 ∧
      t.tx = s.tx ++ buildFrame 0x00 0x02
          [modByteWith s.modBit (mods.extractLsb' 0 12) (romRead s.keyRom key).shift, 0x00, (romRead s.keyRom key).scan,
            0x00, 0x00, 0x00, 0x00, 0x00] ++
        buildFrame 0x00 0x02 [0x00, 0x00, 0x00, 0x00, 0x00, 0x00, 0x00, 0x00]) ∧
  ∀ (btn : Button) (s : State), screensOk s.cfgScreenX s.cfgScreenY = true →
    s.arrivals = okRequests (expandPseudo (.msClick btn)) →
    ∃ t : State, Host.Core.run Sys2Proof.core 2 s = .next t ∧ t.arrivals = [] ∧ t.resp = 0 ∧
      t.tx = s.tx ++ buildFrame 0x00 0x05 [0x01, btnByte s.btnCode btn, 0x00, 0x00, 0x00] ++
        buildFrame 0x00 0x05 [0x01, btnByte s.btnCode .none, 0x00, 0x00, 0x00]

/-- Rule R72 with rules R152 to R159 for the reports and their ranges: on a well-formed instance `ms.press`, `ms.release`,
`ms.move_rel` and `ms.move_abs` are one step each. The first two send a relative report with zero motion, the button held or
cleared. A move sends its report with no button, or raises RangeError. That a delta of -128 is out of range is decision D13,
that a coordinate must be below its screen size is decision D14 (log 17), that the wheel is 0 is decision D26. -/
def Obligations.MousePseudoOperationsSendOneReport : Prop :=
  ∀ s : State, screensOk s.cfgScreenX s.cfgScreenY = true →
    (∀ btn : Button, s.arrivals = okRequests (expandPseudo (.msPress btn)) →
      ∃ t, step s = .next t ∧ t.arrivals = [] ∧ t.resp = 0 ∧
        t.tx = s.tx ++ buildFrame 0x00 0x05 [0x01, btnByte s.btnCode btn, 0x00, 0x00, 0x00]) ∧
    (s.arrivals = okRequests (expandPseudo .msRelease) →
      ∃ t, step s = .next t ∧ t.arrivals = [] ∧ t.resp = 0 ∧
        t.tx = s.tx ++ buildFrame 0x00 0x05 [0x01, btnByte s.btnCode .none, 0x00, 0x00, 0x00]) ∧
    (∀ dx dy : BitVec 16, s.arrivals = okRequests (expandPseudo (.msMoveRel dx dy)) →
      ∃ t, step s = .next t ∧ t.arrivals = [] ∧
        (-127 ≤ dx.toInt ∧ dx.toInt ≤ 127 ∧ -127 ≤ dy.toInt ∧ dy.toInt ≤ 127 → t.resp = 0 ∧
          t.tx = s.tx ++ buildFrame 0x00 0x05
            [0x01, btnByte s.btnCode .none, BitVec.ofInt 8 dx.toInt, BitVec.ofInt 8 dy.toInt, 0x00]) ∧
        (¬ (-127 ≤ dx.toInt ∧ dx.toInt ≤ 127 ∧ -127 ≤ dy.toInt ∧ dy.toInt ≤ 127) → t.resp = 4 ∧ t.tx = s.tx)) ∧
    ∀ x y : BitVec 16, s.arrivals = okRequests (expandPseudo (.msMoveAbs x y)) →
      ∃ t, step s = .next t ∧ t.arrivals = [] ∧
        (x.toNat < s.cfgScreenX.toNat ∧ y.toNat < s.cfgScreenY.toNat → t.resp = 0 ∧
          ∀ xs ys : Nat, xs = 4096 * x.toNat / s.cfgScreenX.toNat → ys = 4096 * y.toNat / s.cfgScreenY.toNat →
            t.tx = s.tx ++ buildFrame 0x00 0x04 [0x02, btnByte s.btnCode .none, BitVec.ofNat 8 xs,
              BitVec.ofNat 8 (xs / 256), BitVec.ofNat 8 ys, BitVec.ofNat 8 (ys / 256), 0x00]) ∧
        (¬ (x.toNat < s.cfgScreenX.toNat ∧ y.toNat < s.cfgScreenY.toNat) → t.resp = 4 ∧ t.tx = s.tx)

/-- Rule R72: on a well-formed instance `kb.type` sends, for each character in order, the press of its key (nothing where
the key is not valid) and then the all-up report, two steps a character. After the step of a press RESP tells whether the
key was valid. -/
def Obligations.TypeSendsAPressAndAReleasePerCharacter : Prop :=
  ∀ (text : List Byte) (s : State), screensOk s.cfgScreenX s.cfgScreenY = true →
    s.arrivals = okRequests (expandPseudo (.kbType text)) →
    (∃ t : State, Host.Core.run Sys2Proof.core (2 * text.length) s = .next t ∧ t.arrivals = [] ∧
      (text ≠ [] → t.resp = 0) ∧
      t.tx = s.tx ++ text.flatMap fun key =>
        (if (romRead s.keyRom key).valid = true then
          buildFrame 0x00 0x02
            [if (romRead s.keyRom key).shift = true then 1#8 <<< (modBitOf s.modBit .shift).toNat else 0, 0x00,
              (romRead s.keyRom key).scan, 0x00, 0x00, 0x00, 0x00, 0x00]
        else []) ++ buildFrame 0x00 0x02 [0x00, 0x00, 0x00, 0x00, 0x00, 0x00, 0x00, 0x00]) ∧
    ∀ (before after : List Byte) (key : Byte), text = before ++ key :: after →
      ∃ t : State, Host.Core.run Sys2Proof.core (2 * before.length + 1) s = .next t ∧
        t.resp = if (romRead s.keyRom key).valid = true then 0 else 1

/-- Rule R71 (decision D26, log 13): whatever line the assembler accepts, its requests have counts of at most 12 and ignored
bits 0, so that each word decodes back to the request. -/
def Obligations.AssemblerWritesWellFormedRequests : Prop :=
  ∀ (line : List Char) (is : List Instr), assembleLine line = some is → ∀ i ∈ is, i.wellFormed = true

/-- Rules R71 and R72 (decision D26), with rules R68 and R104 for the names: what the spec's own lines assemble to. The examples
of rule R73, every key, modifier and button name, a character literal, a raw key id, each pseudo-operation, and the literals
that are rejected. U+007B and U+007D are the braces of a modifier set. -/
def Obligations.AssemblerReadsTheSpecsLines : Prop :=
  (∀ row ∈ [("kb.press 'a'", 0x00000000_00000000_00000000_00006101),
      ("kb.release", 0x00000000_00000000_00000000_00000002),
      ("ms.abs 960, 540, left, 0", 0x00000000_00000000_021C03C0_00000104),
      ("ms.rel -10, 5, null, -3", 0x00000000_00000000_0005FFF6_FFFD0005),
      ("frame 0x00, 0x05, [0x01, 0x00, 0xF6, 0x05, 0xFD]", 0x00000000_000000FD_05F60001_05050006),
      ("key.lookup 'A'", (0x00000000_00000000_00000000_00004107 : Request)),
      ("key.lookup '\\''", 0x2707), ("key.lookup '\\\\'", 0x5C07), ("key.lookup #0xC3 ; no key", 0xC307)],
    (assembleLine row.1.toList).map (·.map encode) = some [row.2]) ∧
  (assembleLine ("kb.press 'a', ".toList ++ [Char.ofNat 0x7B] ++ "ctrl".toList ++ [Char.ofNat 0x7D])).map (·.map encode) =
    some [0x00000000_00000000_00000000_00016101] ∧
  (assembleLine ("kb.trigger ['a', 'b'], ".toList ++ [Char.ofNat 0x7B] ++ "ctrl_left, alt_left".toList ++
    [Char.ofNat 0x7D])).map (·.map encode) = some [0x00000000_00000000_00006261_00820023] ∧
  (∀ row ∈ [("enter", 0x80), ("esc", 0x81), ("escape", 0x81), ("backspace", 0x82), ("tab", 0x83), ("capslock", 0x84),
      ("f1", 0x85), ("f2", 0x86), ("f3", 0x87), ("f4", 0x88), ("f5", 0x89), ("f6", 0x8A), ("f7", 0x8B), ("f8", 0x8C),
      ("f9", 0x8D), ("f10", 0x8E), ("f11", 0x8F), ("f12", 0x90), ("printscreen", 0x91), ("scrolllock", 0x92),
      ("pause", 0x93), ("insert", 0x94), ("home", 0x95), ("pageup", 0x96), ("delete", 0x97), ("end", 0x98),
      ("pagedown", 0x99), ("right", 0x9A), ("left", 0x9B), ("down", 0x9C), ("up", 0x9D), ("space", (0x20 : Byte))],
    assembleLine ("key.lookup ".toList ++ row.1.toList) = some [.keyLookup row.2]) ∧
  (∀ row ∈ [("ctrl", 0), ("ctrl_left", 1), ("ctrl_right", 2), ("shift", 3), ("shift_left", 4), ("shift_right", 5),
      ("alt", 6), ("alt_left", 7), ("alt_right", 8), ("win", 9), ("win_left", 10), ("win_right", 11), ("#b12", 12),
      ("#b13", 13), ("#b14", 14), ("#b15", 15)],
    assembleLine ("kb.press 'a', ".toList ++ [Char.ofNat 0x7B] ++ row.1.toList ++ [Char.ofNat 0x7D]) =
      some [.kbPress 0x61 (1#16 <<< row.2)]) ∧
  (∀ row ∈ [("none", Button.none), ("null", .none), ("left", .left), ("right", .right), ("center", .center)],
    assembleLine ("ms.press ".toList ++ row.1.toList) = some [.msRel row.2 0 0 0]) ∧
  assembleLine "ms.release".toList = some [.msRel .none 0 0 0] ∧
  assembleLine "ms.move_rel -32768, 32767".toList = some [.msRel .none 0 0x8000 0x7FFF] ∧
  assembleLine "ms.move_abs 0, 65535".toList = some [.msAbs .none 0 0 0xFFFF] ∧
  assembleLine "ms.click left".toList = some [.msRel .left 0 0 0, .msRel .none 0 0 0] ∧
  assembleLine "kb.tap esc".toList = some [.kbPress 0x81 0, .kbRelease] ∧
  assembleLine "kb.type \"Hi\"".toList = some [.kbPress 0x48 0, .kbRelease, .kbPress 0x69 0, .kbRelease] ∧
  assembleLine "ms.rel 200, 0, none, 0".toList = some [.msRel .none 0 200 0] ∧
  ∀ line ∈ ["ms.abs 65536, 0, none, 0", "ms.abs 0, -1, none, 0", "ms.rel 32768, 0, none, 0", "ms.rel 0, -32769, none, 0",
      "ms.abs 0, 0, none, 32768", "frame 256, 2, []", "frame 0, -1, []", "frame 0, 2, [256]",
      "frame 0, 2, [0, 0, 0, 0, 0, 0, 0, 0, 0, 0, 0, 0, 0]",
      "kb.trigger ['a', 'a', 'a', 'a', 'a', 'a', 'a', 'a', 'a', 'a', 'a', 'a', 'a']"],
    assembleLine line.toList = none

/-- Rule R71 (decision D26, log 13): every request the assembler can write is read back from its line `requestLine`, with
every key, mask, button, number and count. -/
def Obligations.AssemblerReadsEveryRequest : Prop :=
  ∀ i : Instr, i.wellFormed = true → assembleLine (requestLine i) = some [i]
end

