-- ==== Sys2Proof/Laws/Assembler.lean ====
section
/-! SUPPORT. What the assembler reads from the text of tokens, numbers, names and whole requests. -/

namespace Sys2Proof.Machine

/-! ## Tokens -/

/-- A character that stands in a word: no blank, quote, comment or punctuation. -/
def wordChar (c : Char) : Bool :=
  c ≠ ';' && c ≠ ' ' && c ≠ '\t' && c ≠ '"' && c ≠ '\'' && (punctuation c).isNone

/-- A character of a word joins the word read so far. -/
theorem lexLine_wordChar (acc cs : List Char) (c : Char) (h : wordChar c = true) :
    lexLine (.code acc) (c :: cs) = lexLine (.code (c :: acc)) cs := by
  simp only [wordChar, Bool.and_eq_true, decide_eq_true_eq, Option.isNone_iff_eq_none] at h
  obtain ⟨⟨⟨⟨⟨h1, h2⟩, h3⟩, h4⟩, h5⟩, h6⟩ := h
  rw [lexLine]
  · simp [h1, h2, h3, h4, h5, h6]
  · intro d ds e; exact absurd e h5
  · intro d ds e; exact absurd e h5

/-- A word is read whole. -/
theorem lexLine_word (w acc cs : List Char) (h : w.all wordChar = true) :
    lexLine (.code acc) (w ++ cs) = lexLine (.code (w.reverse ++ acc)) cs := by
  induction w generalizing acc with
  | nil => rfl
  | cons c w ih =>
    simp only [List.all_cons, Bool.and_eq_true] at h
    rw [List.cons_append, lexLine_wordChar _ _ _ h.1, ih _ h.2]
    simp

/-- A blank ends a word. -/
theorem lexLine_blank (acc cs : List Char) :
    lexLine (.code acc) (' ' :: cs) = (lexLine (.code []) cs).map (endWord acc) := by
  rw [lexLine]
  · simp
  all_goals (intro _ _ e; exact absurd e (by decide))

/-- A punctuation mark ends a word and is a token. -/
theorem lexLine_punctuation (acc cs : List Char) (c : Char) (t : Tok) (h : punctuation c = some t) :
    lexLine (.code acc) (c :: cs) = (lexLine (.code []) cs).map fun ts => endWord acc (t :: ts) := by
  have hc : c = ',' ∨ c = '[' ∨ c = ']' ∨ c = Char.ofNat 0x7B ∨ c = Char.ofNat 0x7D := by
    simp only [punctuation] at h
    split_ifs at h <;> simp [*]
  rw [lexLine]
  · simp only [h]
    rcases hc with rfl | rfl | rfl | rfl | rfl <;> rfl
  all_goals (intro _ _ e; rcases hc with rfl | rfl | rfl | rfl | rfl <;> exact absurd e (by decide))

theorem endWord_nil (ts : List Tok) : endWord [] ts = ts := rfl

theorem endWord_reverse (w : String) (h : w ≠ "") (ts : List Tok) : endWord w.toList.reverse ts = .word w :: ts := by
  simp [endWord, h]

/-- A token of a request line: a nonempty word or a punctuation mark. -/
def Tok.plain : Tok → Bool
  | .word w => w ≠ "" && w.toList.all wordChar
  | .chr _ => false
  | .str _ => false
  | .comma | .openList | .closeList | .openSet | .closeSet => true

def Tok.isWord : Tok → Bool
  | .word _ => true
  | _ => false

/-- No two words are next to each other. -/
def wordsApart : List Tok → Bool
  | [] => true
  | t :: ts => !(t.isWord && (ts.head?.map Tok.isWord).getD false) && wordsApart ts

/-- The text of plain tokens, no two words next to each other, is read back as the tokens. -/
theorem lexLine_tokens (ts : List Tok) (acc : List Char) (hp : ts.all Tok.plain = true) (hw : wordsApart ts = true)
    (ha : acc = [] ∨ (ts.head?.map Tok.isWord).getD false = false) :
    lexLine (.code acc) (ts.flatMap tokenText) = some (endWord acc ts) := by
  induction ts generalizing acc with
  | nil => simp [lexLine]
  | cons t ts ih =>
    simp only [List.all_cons, wordsApart, Bool.and_eq_true] at hp hw
    have mark : ∀ (c : Char) (t' : Tok), punctuation c = some t' → lexLine (.code acc) (c :: ts.flatMap tokenText) =
        some (endWord acc (t' :: ts)) := by
      intro c t' h
      rw [lexLine_punctuation _ _ _ _ h, ih [] hp.2 hw.2 (.inl rfl), Option.map_some, endWord_nil]
    rw [List.flatMap_cons]
    cases t with
    | word w =>
      have hne : acc = [] := by simpa [Tok.isWord] using ha
      subst hne
      simp only [Tok.plain, Bool.and_eq_true, decide_eq_true_eq] at hp
      rw [tokenText, lexLine_word _ _ _ hp.1.2, List.append_nil,
        ih _ hp.2 hw.2 (.inr (by simpa [Tok.isWord] using hw.1)), endWord_reverse w hp.1.1, endWord_nil]
    | chr c => simp [Tok.plain] at hp
    | str s => simp [Tok.plain] at hp
    | comma =>
      show lexLine (.code acc) (',' :: ' ' :: ts.flatMap tokenText) = _
      rw [lexLine_punctuation _ _ _ .comma (by decide), lexLine_blank, ih [] hp.2 hw.2 (.inl rfl)]
      rfl
    | openList => exact mark _ _ (by decide)
    | closeList => exact mark _ _ (by decide)
    | openSet => exact mark _ _ (by decide)
    | closeSet => exact mark _ _ (by decide)

/-- Separated items are read back. -/
theorem items_separated (ts : List Tok) : items (separated ts) = some ts := by
  induction ts with
  | nil => rfl
  | cons t ts ih =>
    cases ts with
    | nil => rfl
    | cons u ts =>
      cases ts with
      | nil => simp [separated, items]
      | cons v ts => 
        simp only [separated] at ih ⊢
        rw [items, ih]; rfl

/-- `upTo` stops at the first closing mark. -/
theorem upTo_append (close : Tok) (ts rest : List Tok) (h : close ∉ ts) :
    upTo close (ts ++ close :: rest) = some (ts, rest) := by
  induction ts with
  | nil => simp [upTo]
  | cons t ts ih =>
    simp only [List.mem_cons, not_or] at h
    simp [upTo, Ne.symm h.1, ih h.2]

/-- Tokens written from values are read back as the values. -/
theorem operands_map {α β : Type} (f : Tok → Option α) (g : β → Tok) (v : β → α) (l : List β)
    (h : ∀ b ∈ l, f (g b) = some (v b)) : operands f (l.map g) = some (l.map v) := by
  induction l with
  | nil => rfl
  | cons b l ih =>
    simp only [List.map_cons, operands, h b (by simp), ih fun x hx => h x (by simp [hx])]
    rfl

/-- What stands among separated items: a comma or an item. -/
theorem mem_separated {t : Tok} {ts : List Tok} (h : t ∈ separated ts) : t = .comma ∨ t ∈ ts := by
  induction ts with
  | nil => simp [separated] at h
  | cons u ts ih =>
    cases ts with
    | nil => exact .inr (by simpa [separated] using h)
    | cons v ts =>
      simp only [separated, List.mem_cons] at h ⊢
      rcases h with rfl | rfl | h
      · simp
      · simp
      · rcases ih h with h | h
        · exact .inl h
        · exact .inr (.inr (by simpa using h))


/-! ## Numbers and names -/

theorem digitValue_hexDigit (d : Nat) (h : d < 16) : digitValue 16 (hexDigit d) = some d := by
  revert d; decide

theorem hexDigits_length (n v : Nat) : (hexDigits n v).length = n := by
  induction n generalizing v with
  | zero => rfl
  | succ n ih => simp [hexDigits, ih]

/-- Digits after digits. -/
theorem digitsValue_append (base acc v : Nat) (cs ds : List Char) (h : digitsValue base acc cs = some v) :
    digitsValue base acc (cs ++ ds) = digitsValue base v ds := by
  induction cs generalizing acc with
  | nil => simp only [digitsValue, Option.some.injEq] at h; rw [h]; rfl
  | cons c cs ih =>
    simp only [digitsValue, Option.bind_eq_some_iff] at h
    obtain ⟨d, hd, h⟩ := h
    simp only [List.cons_append, digitsValue, hd, Option.bind_some]
    exact ih _ h

/-- Hex digits are read back as the number. -/
theorem digitsValue_hexDigits (n v : Nat) (h : v < 16 ^ n) : digitsValue 16 0 (hexDigits n v) = some v := by
  induction n generalizing v with
  | zero => simp at h; subst h; rfl
  | succ n ih =>
    rw [hexDigits, digitsValue_append _ _ _ _ _ (ih (v / 16) (by rw [pow_succ] at h; omega))]
    simp only [digitsValue, digitValue_hexDigit _ (Nat.mod_lt v (by decide : 0 < 16)), Option.bind_some]
    congr 1; omega

theorem natLiteral_hexText (n v : Nat) (h : v < 16 ^ (n + 1)) : natLiteral (hexText (n + 1) v) = some v := by
  have hl := hexDigits_length (n + 1) v
  have hv := digitsValue_hexDigits (n + 1) v h
  rw [hexText]
  cases hd : hexDigits (n + 1) v with
  | nil => rw [hd] at hl; simp at hl
  | cons c cs => rw [hd] at hv; exact hv

theorem intLiteral_hexText (n v : Nat) (h : v < 16 ^ (n + 1)) : intLiteral (hexText (n + 1) v) = some (v : Int) := by
  rw [intLiteral, natLiteral_hexText n v h]
  · rfl
  · rintro cs ⟨⟩

theorem numberIn_wordOf (lo hi v : Int) (cs : List Char) (h : intLiteral cs = some v) (h1 : lo ≤ v) (h2 : v ≤ hi) :
    numberIn lo hi (wordOf cs) = some v := by
  simp [numberIn, wordOf, h, h1, h2]

theorem pixelOperand_hexText (x : BitVec 16) : pixelOperand (wordOf (hexText 4 x.toNat)) = some x := by
  have := x.isLt
  rw [pixelOperand, numberIn_wordOf _ _ _ _ (intLiteral_hexText 3 _ this) (by omega) (by omega)]
  simp

theorem byteOperand_hexText (b : Byte) : byteOperand (wordOf (hexText 2 b.toNat)) = some b := by
  have := b.isLt
  rw [byteOperand, numberIn_wordOf _ _ _ _ (intLiteral_hexText 1 _ this) (by omega) (by omega)]
  simp

theorem intLiteral_signedText (v : BitVec 16) : intLiteral (signedText v) = some v.toInt := by
  have h1 := BitVec.toInt_lt (x := v)
  have h2 := BitVec.le_toInt (x := v)
  rw [signedText]
  split
  · next h =>
    rw [intLiteral, natLiteral_hexText 3 _ (by omega)]
    simp only [Option.map_some, Option.some.injEq, Int.ofNat_eq_natCast]; omega
  · next h =>
    rw [intLiteral_hexText 3 _ v.isLt]
    simp only [Option.some.injEq]
    rw [BitVec.toInt_eq_toNat_cond] at h ⊢
    split <;> omega

theorem signedOperand_signedText (v : BitVec 16) : signedOperand (wordOf (signedText v)) = some v := by
  have h1 := BitVec.toInt_lt (x := v)
  have h2 := BitVec.le_toInt (x := v)
  rw [signedOperand, numberIn_wordOf _ _ _ _ (intLiteral_signedText v) (by omega) (by omega)]
  simp

theorem keyOperand_keyToken (k : Byte) : keyOperand (keyToken k) = some k := by
  revert k; decide +kernel

theorem buttonOperand_buttonToken (b : Button) : buttonOperand (buttonToken b) = some b := by
  cases b <;> decide

theorem modifierOperand_name {p : String × Nat} (h : p ∈ modifierNames) :
    modifierOperand (.word p.1) = some (1#16 <<< p.2) := by
  revert p; decide

/-- A bit of an OR over a list is a bit of one of its parts, or of the start. -/
theorem getLsbD_foldl_or (l : List (BitVec 16)) (acc : BitVec 16) (j : Nat) :
    (l.foldl (· ||| ·) acc).getLsbD j = true ↔ acc.getLsbD j = true ∨ ∃ b ∈ l, b.getLsbD j = true := by
  induction l generalizing acc with
  | nil => simp
  | cons b l ih => rw [List.foldl_cons, ih]; simp [or_assoc]

theorem mem_modifierNames_snd : modifierNames.map (·.2) = List.range 16 := by decide

/-- A mask is the OR of the bits of its names. -/
theorem foldl_modifierNames (m : BitVec 16) :
    ((modifierNames.filter fun p => m.getLsbD p.2).map fun p => 1#16 <<< p.2).foldl (· ||| ·) 0 = m := by
  apply BitVec.eq_of_getLsbD_eq
  intro j hj
  rw [Bool.eq_iff_iff, getLsbD_foldl_or]
  have hmem : ∃ p ∈ modifierNames, p.2 = j := by
    have : j ∈ modifierNames.map (·.2) := by rw [mem_modifierNames_snd]; simpa using hj
    simpa using this
  constructor
  · rintro (h | ⟨b, hb, h⟩)
    · simp at h
    · simp only [List.mem_map, List.mem_filter] at hb
      obtain ⟨p, ⟨-, hp⟩, rfl⟩ := hb
      simp at h
      have : j = p.2 := by omega
      rw [this]; exact hp
  · intro h
    obtain ⟨p, hp, rfl⟩ := hmem
    refine .inr ⟨1#16 <<< p.2, ?_, by simp [hj]⟩
    simp only [List.mem_map, List.mem_filter]
    exact ⟨p, ⟨hp, h⟩, rfl⟩

/-- A set of modifiers is read back as its mask. -/
theorem modifierSuffix_tokens (m : BitVec 16) : modifierSuffix (modifierSetTokens m) = some m := by
  have hmem : Tok.closeSet ∉ separated (modifierTokens m) := by
    intro h
    rcases mem_separated h with h | h
    · cases h
    · simp [modifierTokens] at h
  have hops : operands modifierOperand (modifierTokens m) =
      some ((modifierNames.filter fun p => m.getLsbD p.2).map fun p => 1#16 <<< p.2) :=
    operands_map _ _ (fun p => 1#16 <<< p.2) _ fun p hp => modifierOperand_name (List.mem_filter.mp hp).1
  show ((upTo .closeSet (separated (modifierTokens m) ++ [.closeSet])).bind _) = _
  rw [upTo_append _ _ _ hmem]
  simp only [Option.bind_some, if_true, items_separated, hops, Option.map_some, foldl_modifierNames]

/-- The entries below the count, the rest 0, are read back as the twelve entries. -/
theorem entries_take (v : Vector Byte 12) (n : Nat) (hn : n ≤ 12) (h : unreadZero n v = true) :
    entries (v.toList.take n) = some v := by
  rw [entries, if_pos (by simp)]
  congr 1
  apply Vector.ext
  intro j hj
  simp only [Vector.getElem_ofFn, List.getD_eq_getElem?_getD, List.getElem?_take]
  split
  · simp [hj]
  · next hjn =>
    simp only [unreadZero, List.all_eq_true, beq_iff_eq] at h
    rw [Option.getD_none]
    refine (h _ ?_).symm
    rw [List.mem_iff_getElem]
    exact ⟨j - n, by simp; omega, by simp [show n + (j - n) = j by omega]⟩


/-! ## Request lines -/

theorem hexDigits_wordChar (n v : Nat) : (hexDigits n v).all wordChar = true := by
  have digit : ∀ d, d < 16 → wordChar (hexDigit d) = true := by decide
  induction n generalizing v with
  | zero => rfl
  | succ n ih => rw [hexDigits, List.all_append, ih]; simp [digit _ (Nat.mod_lt v (by decide : 0 < 16))]

theorem wordOf_plain (cs : List Char) (h : cs ≠ []) (hc : cs.all wordChar = true) : (wordOf cs).plain = true := by
  have : String.ofList cs ≠ "" := by
    intro e
    exact h (by simpa using congrArg String.toList e)
  simp only [wordOf, Tok.plain, String.toList_ofList, hc, Bool.and_true, decide_eq_true_eq]
  exact this

theorem hexText_plain (n v : Nat) : (wordOf (hexText n v)).plain = true := by
  refine wordOf_plain _ (by simp [hexText]) ?_
  have h0 : wordChar '0' = true := by decide
  have hx : wordChar 'x' = true := by decide
  rw [hexText, List.all_cons, List.all_cons, h0, hx, hexDigits_wordChar]
  rfl

theorem signedText_plain (v : BitVec 16) : (wordOf (signedText v)).plain = true := by
  rw [signedText]
  split
  · refine wordOf_plain _ (by simp) ?_
    have h0 : wordChar '-' = true := by decide
    have h1 : wordChar '0' = true := by decide
    have hx : wordChar 'x' = true := by decide
    rw [hexText, List.all_cons, List.all_cons, List.all_cons, h0, h1, hx, hexDigits_wordChar]
    rfl
  · exact hexText_plain _ _

theorem keyToken_plain (k : Byte) : (keyToken k).plain = true := by revert k; decide +kernel

theorem buttonToken_plain (b : Button) : (buttonToken b).plain = true := by cases b <;> decide

theorem modifierTokens_plain (m : BitVec 16) : ∀ t ∈ modifierTokens m, t.plain = true := by
  have names : ∀ p ∈ modifierNames, (Tok.word p.1).plain = true := by decide
  intro t h
  obtain ⟨p, hp, rfl⟩ := List.mem_map.mp h
  exact names p (List.mem_filter.mp hp).1

/-- Separated plain tokens before a mark (or nothing) can be read by `lexLine_tokens`. -/
theorem separated_readable (ts rest : List Tok) (ht : ∀ t ∈ ts, t.plain = true) (hr : rest.all Tok.plain = true)
    (hw : wordsApart rest = true) (hm : (rest.head?.map Tok.isWord).getD false = false) :
    (separated ts ++ rest).all Tok.plain = true ∧ wordsApart (separated ts ++ rest) = true := by
  induction ts with
  | nil => exact ⟨hr, hw⟩
  | cons t ts ih =>
    have htp := ht t (by simp)
    cases ts with
    | nil =>
      simp only [separated, List.cons_append, List.nil_append, List.all_cons, wordsApart, htp, hr, hw, hm]
      simp
    | cons u ts =>
      obtain ⟨h1, h2⟩ := ih fun x hx => ht x (by simp [hx])
      simp only [separated, List.cons_append, List.all_cons, wordsApart, htp, h1, h2]
      simp [Tok.plain, Tok.isWord]

theorem modifierSetTokens_readable (m : BitVec 16) :
    (modifierSetTokens m).all Tok.plain = true ∧ wordsApart (modifierSetTokens m) = true := by
  obtain ⟨h1, h2⟩ := separated_readable (modifierTokens m) [.closeSet] (modifierTokens_plain m) rfl rfl rfl
  rw [modifierSetTokens, List.cons_append, List.cons_append, List.all_cons, List.all_cons, wordsApart, wordsApart,
    h1, h2]
  exact ⟨rfl, rfl⟩

/-- The operands of every request can be read by `lexLine_tokens`. -/
theorem operandTokens_readable (i : Instr) :
    (operandTokens i).all Tok.plain = true ∧ wordsApart (operandTokens i) = true := by
  cases i with
  | kbPress key mods =>
    obtain ⟨h1, h2⟩ := modifierSetTokens_readable mods
    rw [operandTokens, List.all_cons, wordsApart, keyToken_plain, h1, h2]
    exact ⟨rfl, rfl⟩
  | kbRelease => exact ⟨rfl, rfl⟩
  | kbTrigger nkeys mods keys =>
    obtain ⟨h1, h2⟩ := modifierSetTokens_readable mods
    obtain ⟨h3, h4⟩ := separated_readable ((keys.toList.take nkeys.toNat).map keyToken)
      (.closeList :: modifierSetTokens mods)
      (by simp only [List.mem_map]; rintro t ⟨k, -, rfl⟩; exact keyToken_plain k)
      (by rw [List.all_cons, h1]; rfl) (by rw [wordsApart, h2]; rfl) rfl
    rw [operandTokens, List.cons_append, List.all_cons, wordsApart, h3, h4]
    exact ⟨rfl, rfl⟩
  | msAbs btn wheel x y =>
    rw [operandTokens, ← List.append_nil (separated _)]
    refine separated_readable _ [] ?_ rfl rfl rfl
    simp only [List.mem_cons, List.not_mem_nil, or_false]
    rintro t (rfl | rfl | rfl | rfl)
    exacts [hexText_plain _ _, hexText_plain _ _, buttonToken_plain _, signedText_plain _]
  | msRel btn wheel dx dy =>
    rw [operandTokens, ← List.append_nil (separated _)]
    refine separated_readable _ [] ?_ rfl rfl rfl
    simp only [List.mem_cons, List.not_mem_nil, or_false]
    rintro t (rfl | rfl | rfl | rfl)
    exacts [signedText_plain _, signedText_plain _, buttonToken_plain _, signedText_plain _]
  | frame addr cmd len payload =>
    obtain ⟨h1, h2⟩ := separated_readable
      ((payload.toList.take len.toNat).map fun b => wordOf (hexText 2 b.toNat)) [.closeList]
      (by simp only [List.mem_map]; rintro t ⟨k, -, rfl⟩; exact hexText_plain _ _) rfl rfl rfl
    rw [operandTokens]
    simp only [List.cons_append, List.all_cons, wordsApart, h1, h2, hexText_plain]
    exact ⟨rfl, rfl⟩
  | keyLookup key => rw [operandTokens, List.all_cons, wordsApart, keyToken_plain]; exact ⟨rfl, rfl⟩

/-- The line of a request is read as its mnemonic and its operands. -/
theorem lexLine_requestLine (i : Instr) :
    lexLine (.code []) (requestLine i) = some (.word (mnemonicOf i) :: operandTokens i) := by
  obtain ⟨h1, h2⟩ := operandTokens_readable i
  have hm : (mnemonicOf i).toList.all wordChar = true ∧ mnemonicOf i ≠ "" := by
    cases i <;> simp only [mnemonicOf] <;> decide
  rw [requestLine, lexLine_word _ _ _ hm.1, lexLine_blank, lexLine_tokens _ _ h1 h2 (.inl rfl), Option.map_some,
    List.append_nil, endWord_reverse _ hm.2, endWord_nil]

end Sys2Proof.Machine
end

