-- ==== Sys2Proof/Laws/Decode.lean ====
section
/-! SUPPORT. The fields of an encoded request, one lemma each. -/

namespace Sys2Proof.Machine

/-! ## Slices of a concatenation -/

/-- A slice inside the low part. -/
theorem extractLsb'_append_low {m n : Nat} (x : BitVec m) (y : BitVec n) (start len : Nat) (h : start + len ≤ n) :
    (x ++ y).extractLsb' start len = y.extractLsb' start len := by
  apply BitVec.eq_of_getLsbD_eq
  intro i hi
  simp only [BitVec.getLsbD_extractLsb', BitVec.getLsbD_append, hi, decide_true, Bool.true_and]
  have : start + i < n := by omega
  simp [this]

/-- A slice inside the high part. -/
theorem extractLsb'_append_high {m n : Nat} (x : BitVec m) (y : BitVec n) (start len : Nat) (h : n ≤ start) :
    (x ++ y).extractLsb' start len = x.extractLsb' (start - n) len := by
  apply BitVec.eq_of_getLsbD_eq
  intro i hi
  simp only [BitVec.getLsbD_extractLsb', BitVec.getLsbD_append, hi, decide_true, Bool.true_and]
  have : ¬ start + i < n := by omega
  rw [if_neg this]
  congr 1
  omega

/-- The whole of a bit vector. -/
theorem extractLsb'_whole {n : Nat} (x : BitVec n) : x.extractLsb' 0 n = x := by simp

/-! ## Buttons -/

@[simp] theorem buttonOf_buttonBits (b : Button) : buttonOf (buttonBits b) = b := by cases b <;> decide

@[simp] theorem buttonBits_buttonOf (b : BitVec 2) : buttonBits (buttonOf b) = b := by revert b; decide

/-! ## Entries -/

/-- Entry `j` of the packed entries is entry `j` (rules R64 and R67). -/
theorem packEntries_entry (v : Vector Byte 12) (j : Nat) (h : j < 12) :
    (packEntries v).extractLsb' (8 * j) 8 = v[j] := by
  show (v[11] ++ v[10] ++ v[9] ++ v[8] ++ v[7] ++ v[6] ++ v[5] ++ v[4] ++ v[3] ++ v[2] ++ v[1] ++ v[0]).extractLsb'
    (8 * j) 8 = v[j]
  have : j = 0 ∨ j = 1 ∨ j = 2 ∨ j = 3 ∨ j = 4 ∨ j = 5 ∨ j = 6 ∨ j = 7 ∨ j = 8 ∨ j = 9 ∨ j = 10 ∨ j = 11 := by
    omega
  rcases this with h | h | h | h | h | h | h | h | h | h | h | h <;> subst h <;>
    repeat rw [extractLsb'_append_high _ _ _ _ (by decide)]
  all_goals try rw [extractLsb'_append_low _ _ _ _ (by decide)]
  all_goals exact extractLsb'_whole _

/-! ## Fields of an encoded request -/

/-- A slice of the operand bits. -/
theorem encode_operands (i : Instr) (start len : Nat) (h : 4 ≤ start) :
    (encode i).extractLsb' start len = (operandBits i).extractLsb' (start - 4) len :=
  extractLsb'_append_high (operandBits i) (opcode i) start len h

/-- The OP of an encoded request is its operation's (rule R61). -/
@[simp] theorem opField_encode (i : Instr) : opField (encode i) = opcode i := by
  show (operandBits i ++ opcode i).extractLsb' 0 4 = opcode i
  rw [extractLsb'_append_low _ _ _ _ (by decide), extractLsb'_whole]

end Sys2Proof.Machine
end

