-- ==== Sys2Proof/Laws/Operands.lean ====
section
/-! SUPPORT. One lemma for each operand function that says what it gives. -/

namespace Sys2Proof.Machine

/-! ## Bytes -/

/-- A byte sum mod 256 is the wrapping sum of the bytes. -/
theorem sum8_eq_foldl (s : List Byte) : sum8 s = s.foldl (· + ·) 0 := by
  have key : ∀ (s : List Byte) (acc : Byte),
      s.foldl (· + ·) acc = acc + BitVec.ofNat 8 ((s.map BitVec.toNat).sum % 256) := by
    intro s
    induction s with
    | nil => intro acc; simp
    | cons b s ih =>
      intro acc
      rw [List.foldl_cons, ih]
      apply BitVec.eq_of_toNat_eq
      simp [BitVec.toNat_add, BitVec.toNat_ofNat]
      omega
  rw [key]
  simp [sum8]

/-- The wrapping sum from any start. -/
theorem foldl_add_start (s : List Byte) (acc : Byte) : s.foldl (· + ·) acc = acc + s.foldl (· + ·) 0 := by
  induction s generalizing acc with
  | nil => simp
  | cons b s ih => rw [List.foldl_cons, List.foldl_cons, ih, ih (0 + b)]; simp [BitVec.add_assoc]

theorem lo8_eq (v : Nat) : lo8 v = BitVec.ofNat 8 v := by
  apply BitVec.eq_of_toNat_eq
  simp [lo8]

theorem hi8_eq (v : Nat) : hi8 v = BitVec.ofNat 8 (v / 256) := by
  apply BitVec.eq_of_toNat_eq
  simp [hi8]

/-- A 16-bit value is its two bytes, little-endian (rule R43). -/
theorem lo8_hi8 (v : Nat) (h : v < 65536) : (lo8 v).toNat + 256 * (hi8 v).toNat = v := by
  simp [lo8, hi8]
  omega

/-! ## Mouse fields -/

theorem byte8_toInt (d : Int) (h : -127 ≤ d) (h' : d ≤ 127) : (byte8 d).toInt = d := by
  rw [byte8, BitVec.toInt_ofInt]
  exact Int.bmod_eq_of_le (by omega) (by omega)

/-- `DeltaByte` by cases. -/
theorem deltaByte_cases (d : Int) :
    ((d < -127 ∨ 127 < d) ∧ deltaByte d = none) ∨
      ((-127 ≤ d ∧ d ≤ 127) ∧ deltaByte d = some (byte8 d)) := by
  by_cases h : d < -127 ∨ d > 127
  · exact .inl ⟨by omega, by simp [deltaByte, h]⟩
  · exact .inr ⟨by omega, by simp [deltaByte, h]⟩

/-- `WheelByte` is `byte8` on its domain (rule R152). -/
theorem wheelByte_cases (w : Int) :
    ((w < -127 ∨ 127 < w) ∧ wheelByte w = none) ∨
      ((-127 ≤ w ∧ w ≤ 127) ∧ wheelByte w = some (byte8 w)) := by
  by_cases h : w < -127 ∨ w > 127
  · exact .inl ⟨by omega, by simp [wheelByte, h]⟩
  · refine .inr ⟨by omega, ?_⟩
    by_cases h0 : 0 ≤ w
    · simp only [wheelByte, h, h0, if_true, if_false, byte8, Option.some.injEq]
      apply BitVec.eq_of_toNat_eq
      simp only [BitVec.toNat_ofNat, BitVec.toNat_ofInt]
      omega
    · simp only [wheelByte, h, h0, if_false, byte8, Option.some.injEq]
      apply BitVec.eq_of_toNat_eq
      simp only [BitVec.toNat_ofNat, BitVec.toNat_ofInt]
      omega

theorem byte8_ne_0x80 (d : Int) (h : -127 ≤ d) (h' : d ≤ 127) : byte8 d ≠ 0x80 := by
  intro e
  have := byte8_toInt d h h'
  rw [e] at this
  simp at this
  omega

/-! ## Modifiers -/

/-- `popcount` is the number of set bits among bits 0 to 15 (rule R11). -/
theorem popcount_eq_card (m : BitVec 16) :
    popcount m = (Finset.univ.filter fun j : Fin 16 => m.getLsbD j.val = true).card := by
  rw [Finset.card_filter, Fin.sum_univ_eq_sum_range (fun j => if m.getLsbD j = true then 1 else 0) 16,
    ← Finset.card_filter]
  show _ = ((List.range 16).filter fun j => decide (m.getLsbD j = true)).length
  simp only [popcount, Bool.decide_eq_true]

theorem modNames_complete (n : ModName) : n ∈ modNames := by cases n <;> decide

theorem modMask_bit (t : Vector (BitVec 3) 12) (n : ModName) (b : Nat) :
    (modMask t n).getLsbD b = true ↔ b = (modBitOf t n).toNat := by
  have h := (modBitOf t n).isLt
  simp only [modMask, BitVec.getLsbD_shiftLeft, BitVec.getLsbD_one]
  simp
  omega

/-- A bit of an OR over a list is a bit of one of its parts, or of the start. -/
theorem foldl_or_bit (t : Vector (BitVec 3) 12) (ns : List ModName) (acc : Byte) (b : Nat) :
    (ns.foldl (fun a n => a ||| modMask t n) acc).getLsbD b = true ↔
      acc.getLsbD b = true ∨ ∃ n ∈ ns, (modBitOf t n).toNat = b := by
  induction ns generalizing acc with
  | nil => simp
  | cons n ns ih =>
    rw [List.foldl_cons, ih, BitVec.getLsbD_or, Bool.or_eq_true, modMask_bit, or_assoc]
    simp only [List.mem_cons, exists_eq_or_imp, eq_comm (a := b)]

/-! ## Key lists -/

/-- `dedupFrom` keeps the entries outside `seen`, each once. -/
theorem mem_dedupFrom (ks seen : List Byte) (k : Byte) : k ∈ dedupFrom seen ks ↔ k ∈ ks ∧ k ∉ seen := by
  induction ks generalizing seen with
  | nil => simp [dedupFrom]
  | cons a ks ih =>
    rw [dedupFrom]
    split
    · next h => rw [ih]; simp at h; constructor <;> intro hk <;> aesop
    · next h => rw [List.mem_cons, ih]; simp at h; constructor <;> intro hk <;> by_cases e : k = a <;> aesop

theorem nodup_dedupFrom (ks seen : List Byte) : (dedupFrom seen ks).Nodup := by
  induction ks generalizing seen with
  | nil => simp [dedupFrom]
  | cons a ks ih =>
    rw [dedupFrom]
    split
    · exact ih seen
    · exact List.nodup_cons.mpr ⟨by simp [mem_dedupFrom], ih _⟩

/-- `lookupAll` succeeds exactly when every entry is valid, and then gives the entries in order. -/
theorem lookupAll_cases (rom : Vector RomEntry 256) (ks : List Byte) :
    ((∀ k ∈ ks, (romRead rom k).valid = true) ∧ lookupAll rom ks = some (ks.map (romRead rom))) ∨
      ((∃ k ∈ ks, (romRead rom k).valid = false) ∧ lookupAll rom ks = none) := by
  induction ks with
  | nil => exact .inl ⟨by simp, rfl⟩
  | cons a ks ih =>
    rcases hv : (romRead rom a).valid with _ | _
    · exact .inr ⟨⟨a, by simp, hv⟩, by simp [lookupAll, hv]⟩
    · rcases ih with ⟨h, e⟩ | ⟨⟨k, hk, hf⟩, e⟩
      · exact .inl ⟨by simpa [hv] using h, by simp [lookupAll, hv, e]⟩
      · exact .inr ⟨⟨k, by simp [hk], hf⟩, by simp [lookupAll, hv, e]⟩

theorem padSlots_length (scans : List Byte) (h : scans.length ≤ 6) : (padSlots scans).length = 6 := by
  simp [padSlots]
  omega

end Sys2Proof.Machine
end

