-- ==== Sys2Proof/Laws/State.lean ====
section
/-! SUPPORT. One lemma per field for each named state update, so that no proof unfolds a record update. -/

namespace Sys2Proof.Machine

variable (s : State) (v : BitVec 32) (bs : List Byte) (e : Err) (r : WriteResult) (as : List Arrival)

@[simp] theorem respond_resp : (respond v s).resp = v := rfl
@[simp] theorem respond_tx : (respond v s).tx = s.tx := rfl
@[simp] theorem respond_cfgScreenX : (respond v s).cfgScreenX = s.cfgScreenX := rfl
@[simp] theorem respond_cfgScreenY : (respond v s).cfgScreenY = s.cfgScreenY := rfl
@[simp] theorem respond_keyRom : (respond v s).keyRom = s.keyRom := rfl
@[simp] theorem respond_modBit : (respond v s).modBit = s.modBit := rfl
@[simp] theorem respond_btnCode : (respond v s).btnCode = s.btnCode := rfl
@[simp] theorem respond_triggerAppliesShift : (respond v s).triggerAppliesShift = s.triggerAppliesShift := rfl
@[simp] theorem respond_arrivals : (respond v s).arrivals = s.arrivals := rfl
@[simp] theorem respond_reply : (respond v s).reply = s.reply := rfl
@[simp] theorem respond_stepIndex : (respond v s).stepIndex = s.stepIndex := rfl

@[simp] theorem appendTx_resp : (appendTx bs s).resp = s.resp := rfl
@[simp] theorem appendTx_tx : (appendTx bs s).tx = s.tx ++ bs := rfl
@[simp] theorem appendTx_cfgScreenX : (appendTx bs s).cfgScreenX = s.cfgScreenX := rfl
@[simp] theorem appendTx_cfgScreenY : (appendTx bs s).cfgScreenY = s.cfgScreenY := rfl
@[simp] theorem appendTx_keyRom : (appendTx bs s).keyRom = s.keyRom := rfl
@[simp] theorem appendTx_modBit : (appendTx bs s).modBit = s.modBit := rfl
@[simp] theorem appendTx_btnCode : (appendTx bs s).btnCode = s.btnCode := rfl
@[simp] theorem appendTx_triggerAppliesShift : (appendTx bs s).triggerAppliesShift = s.triggerAppliesShift := rfl
@[simp] theorem appendTx_arrivals : (appendTx bs s).arrivals = s.arrivals := rfl
@[simp] theorem appendTx_reply : (appendTx bs s).reply = s.reply := rfl
@[simp] theorem appendTx_stepIndex : (appendTx bs s).stepIndex = s.stepIndex := rfl

@[simp] theorem raiseError_resp : (raiseError e s).resp = respOfError e := rfl
@[simp] theorem raiseError_tx : (raiseError e s).tx = s.tx := rfl
@[simp] theorem raiseError_cfgScreenX : (raiseError e s).cfgScreenX = s.cfgScreenX := rfl
@[simp] theorem raiseError_cfgScreenY : (raiseError e s).cfgScreenY = s.cfgScreenY := rfl
@[simp] theorem raiseError_keyRom : (raiseError e s).keyRom = s.keyRom := rfl
@[simp] theorem raiseError_modBit : (raiseError e s).modBit = s.modBit := rfl
@[simp] theorem raiseError_btnCode : (raiseError e s).btnCode = s.btnCode := rfl
@[simp] theorem raiseError_triggerAppliesShift : (raiseError e s).triggerAppliesShift = s.triggerAppliesShift := rfl
@[simp] theorem raiseError_arrivals : (raiseError e s).arrivals = s.arrivals := rfl
@[simp] theorem raiseError_reply : (raiseError e s).reply = s.reply := rfl
@[simp] theorem raiseError_stepIndex : (raiseError e s).stepIndex = s.stepIndex := rfl

@[simp] theorem accept_resp : (accept r as s).resp = s.resp := rfl
@[simp] theorem accept_tx : (accept r as s).tx = s.tx := rfl
@[simp] theorem accept_cfgScreenX : (accept r as s).cfgScreenX = s.cfgScreenX := rfl
@[simp] theorem accept_cfgScreenY : (accept r as s).cfgScreenY = s.cfgScreenY := rfl
@[simp] theorem accept_keyRom : (accept r as s).keyRom = s.keyRom := rfl
@[simp] theorem accept_modBit : (accept r as s).modBit = s.modBit := rfl
@[simp] theorem accept_btnCode : (accept r as s).btnCode = s.btnCode := rfl
@[simp] theorem accept_triggerAppliesShift : (accept r as s).triggerAppliesShift = s.triggerAppliesShift := rfl
@[simp] theorem accept_arrivals : (accept r as s).arrivals = as := rfl
@[simp] theorem accept_reply : (accept r as s).reply = r := rfl
@[simp] theorem accept_stepIndex : (accept r as s).stepIndex = s.stepIndex + 1 := rfl

@[simp] theorem resetCore_resp : (resetCore s).resp = 0 := rfl
@[simp] theorem resetCore_tx : (resetCore s).tx = [] := rfl
@[simp] theorem resetCore_cfgScreenX : (resetCore s).cfgScreenX = s.cfgScreenX := rfl
@[simp] theorem resetCore_cfgScreenY : (resetCore s).cfgScreenY = s.cfgScreenY := rfl
@[simp] theorem resetCore_keyRom : (resetCore s).keyRom = s.keyRom := rfl
@[simp] theorem resetCore_modBit : (resetCore s).modBit = s.modBit := rfl
@[simp] theorem resetCore_btnCode : (resetCore s).btnCode = s.btnCode := rfl
@[simp] theorem resetCore_triggerAppliesShift : (resetCore s).triggerAppliesShift = s.triggerAppliesShift := rfl
@[simp] theorem resetCore_arrivals : (resetCore s).arrivals = s.arrivals := rfl
@[simp] theorem resetCore_reply : (resetCore s).reply = .ok := rfl
@[simp] theorem resetCore_stepIndex : (resetCore s).stepIndex = 0 := rfl

@[simp] theorem present_arrivals : (present as s).arrivals = s.arrivals ++ as := rfl
@[simp] theorem present_nil : present [] s = s := by simp [present]

/-- What an update that touches only RESP, TX and the model's own fields does to the configuration: nothing. -/
theorem sameConfig_respond : SameConfig s (respond v s) := ⟨rfl, rfl, rfl, rfl, rfl, rfl⟩
theorem sameConfig_appendTx : SameConfig s (appendTx bs s) := ⟨rfl, rfl, rfl, rfl, rfl, rfl⟩
theorem sameConfig_raiseError : SameConfig s (raiseError e s) := ⟨rfl, rfl, rfl, rfl, rfl, rfl⟩
theorem sameConfig_accept : SameConfig s (accept r as s) := ⟨rfl, rfl, rfl, rfl, rfl, rfl⟩
theorem sameConfig_resetCore : SameConfig s (resetCore s) := ⟨rfl, rfl, rfl, rfl, rfl, rfl⟩
theorem sameConfig_refl : SameConfig s s := ⟨rfl, rfl, rfl, rfl, rfl, rfl⟩

theorem SameConfig.trans {s t u : State} (h : SameConfig s t) (h' : SameConfig t u) : SameConfig s u := by
  obtain ⟨h1, h2, h3, h4, h5, h6⟩ := h
  obtain ⟨k1, k2, k3, k4, k5, k6⟩ := h'
  exact ⟨k1.trans h1, k2.trans h2, k3.trans h3, k4.trans h4, k5.trans h5, k6.trans h6⟩

end Sys2Proof.Machine
end

