-- ==== Sys2Proof/Laws/Ops.lean ====
section
/-! SUPPORT. What framing, `transmit` and `exec` can do, said once. -/

namespace Sys2Proof.Machine

/-! ## RESP values -/

@[simp] theorem statusOf_respOfError (e : Err) : statusOf (respOfError e) = e.code := by cases e <;> decide

@[simp] theorem statusOf_respOk : statusOf respOk = 0 := by decide

@[simp] theorem statusOf_respOfLookup (scan : Byte) (shift : Bool) : statusOf (respOfLookup scan shift) = 0 := by
  revert scan
  cases shift <;> decide

theorem respLegal_respOfError (e : Err) : RespLegal (respOfError e) := by cases e <;> decide

theorem respLegal_respOk : RespLegal respOk := by decide

theorem respLegal_respOfLookup (scan : Byte) (shift : Bool) : RespLegal (respOfLookup scan shift) := by
  revert scan
  cases shift <;> decide

theorem Err.code_ne_zero (e : Err) : e.code ≠ 0 := by cases e <;> decide

theorem Err.code_eq_eight (e : Err) : e.code = 8 ↔ e = .transport := by cases e <;> decide

theorem respOfError_eq (e : Err) : respOfError e = (statusOf (respOfError e)).zeroExtend 32 := by
  rw [statusOf_respOfError]; rfl

/-! ## Frames -/

@[simp] theorem frameBody_length (addr cmd : Byte) (payload : List Byte) :
    (frameBody addr cmd payload).length = 5 + payload.length := by
  simp [frameBody, head]
  omega

@[simp] theorem buildFrame_length (addr cmd : Byte) (payload : List Byte) :
    (buildFrame addr cmd payload).length = 6 + payload.length := by
  simp [buildFrame]
  omega

theorem buildFrame_ne_nil (addr cmd : Byte) (payload : List Byte) : buildFrame addr cmd payload ≠ [] := by
  simp [buildFrame]

/-- The checksum in its short form (rule R82). -/
theorem sum8_frameBody (addr cmd : Byte) (payload : List Byte) :
    sum8 (frameBody addr cmd payload) =
      0x02 + addr + cmd + BitVec.ofNat 8 payload.length + payload.foldl (· + ·) 0 := by
  rw [sum8_eq_foldl, frameBody, head, List.foldl_append, foldl_add_start]
  simp

/-- A frame, its checksum in the short form (rules R80 and R82). -/
theorem buildFrame_eq (addr cmd : Byte) (payload : List Byte) :
    buildFrame addr cmd payload =
      [0x57, 0xAB, addr, cmd, BitVec.ofNat 8 payload.length] ++ payload ++
        [0x02 + addr + cmd + BitVec.ofNat 8 payload.length + payload.foldl (· + ·) 0] := by
  rw [buildFrame, sum8_frameBody]
  rfl

theorem buildFrame_take (addr cmd : Byte) (payload : List Byte) :
    (buildFrame addr cmd payload).take (5 + payload.length) = frameBody addr cmd payload := by
  rw [buildFrame, List.take_left' (frameBody_length ..)]

/-- The six commands and lengths of rule R84. -/
theorem expectedLen_cases (cmd : Byte) :
    (cmd = 0x02 ∧ expectedLen cmd = some 8) ∨ (cmd = 0x04 ∧ expectedLen cmd = some 7) ∨
      (cmd = 0x05 ∧ expectedLen cmd = some 5) ∨
      ((cmd ≠ 0x02 ∧ cmd ≠ 0x04 ∧ cmd ≠ 0x05) ∧ expectedLen cmd = none) := by
  revert cmd
  decide

theorem expectedLen_le (cmd : Byte) (n : Nat) (h : expectedLen cmd = some n) : n ≤ 8 := by
  rcases expectedLen_cases cmd with ⟨-, e⟩ | ⟨-, e⟩ | ⟨-, e⟩ | ⟨-, e⟩ <;> rw [e] at h <;> simp at h <;> omega

/-! ## Handing over a frame -/

theorem transmit_ok (f : List Byte) (s : State) (h : s.reply = .ok) :
    transmit f s = { s with tx := s.tx ++ f, resp := 0x00000000 } := by
  unfold transmit
  split
  · rfl
  · next k h' => rw [h] at h'; cases h'

theorem transmit_ioError (f : List Byte) (s : State) (k : Nat) (h : s.reply = .ioError k) :
    transmit f s = { s with tx := s.tx ++ f.take k, resp := 0x00000008 } := by
  unfold transmit
  split
  · next h' => rw [h] at h'; cases h'
  · next k' h' => rw [h] at h'; cases h'; rfl

/-- What a handed-over frame does, in either case. -/
theorem transmit_cases (f : List Byte) (s : State) :
    (s.reply = .ok ∧ transmit f s = respond respOk (appendTx f s)) ∨
      ∃ k, s.reply = .ioError k ∧ transmit f s = raiseError .transport (appendTx (f.take k) s) := by
  unfold transmit
  split
  · next h => exact .inl ⟨h, rfl⟩
  · next k h => exact .inr ⟨k, h, rfl⟩

/-! ## Operations -/

/-- What an operation can do: raise an error other than TransportError (FRAME's two errors only if it is FRAME), hand over one
frame of a known command whose payload has the command's length, or answer a lookup. -/
theorem exec_cases (i : Instr) (s : State) :
    (∃ e, e ≠ .transport ∧ ((∀ a c l p, i ≠ .frame a c l p) → e ≠ .frameLength ∧ e ≠ .command) ∧
      exec i s = .next (raiseError e s)) ∨
      ((∀ k, i ≠ .keyLookup k) ∧ ∃ addr cmd payload, expectedLen cmd = some payload.length ∧
        ((∀ a c l p, i ≠ .frame a c l p) → addr = 0x00) ∧
        exec i s = .next (transmit (buildFrame addr cmd payload) s)) ∨
      ∃ k, i = .keyLookup k ∧
        exec i s = .next (respond (respOfLookup (romRead s.keyRom k).scan (romRead s.keyRom k).shift) s) := by
  cases i with
  | kbPress key mods =>
    simp only [exec, execKbPress, kbPressEffect]
    split
    · exact .inl ⟨.unknownKey, by decide, by simp, rfl⟩
    · split
      · exact .inl ⟨.unknownModifier, by decide, by simp, rfl⟩
      · exact .inr (.inl ⟨by simp, 0x00, 0x02, _, rfl, fun _ => rfl, rfl⟩)
  | kbRelease => exact .inr (.inl ⟨by simp, 0x00, 0x02, _, rfl, fun _ => rfl, rfl⟩)
  | kbTrigger nkeys mods keys =>
    simp only [exec, execKbTrigger, kbTriggerEffect]
    split
    · exact .inl ⟨.illegalRequest, by decide, by simp, rfl⟩
    · split
      · exact .inl ⟨.tooManyKeys, by decide, by simp, rfl⟩
      · next hlen =>
        split
        · exact .inl ⟨.unknownModifier, by decide, by simp, rfl⟩
        · rcases lookupAll_cases s.keyRom (dedup (keys.toList.take nkeys.toNat)) with ⟨-, e⟩ | ⟨-, e⟩ <;> rw [e]
          · refine .inr (.inl ⟨by simp, 0x00, 0x02, triggerReport s mods _, ?_, fun _ => rfl, rfl⟩)
            simp only [triggerReport, keyboardReport, List.length_append, List.length_cons, List.length_nil]
            rw [padSlots_length _ (by simp; omega)]
            rfl
          · exact .inl ⟨.unknownKey, by decide, by simp, rfl⟩
  | msAbs btn wheel x y =>
    simp only [exec, execMsAbs, msAbsEffect]
    split
    · exact .inl ⟨.range, by decide, by simp, rfl⟩
    · split
      · exact .inl ⟨.range, by decide, by simp, rfl⟩
      · exact .inr (.inl ⟨by simp, 0x00, 0x04, _, rfl, fun _ => rfl, rfl⟩)
  | msRel btn wheel dx dy =>
    simp only [exec, execMsRel, msRelEffect]
    split
    · exact .inr (.inl ⟨by simp, 0x00, 0x05, _, rfl, fun _ => rfl, rfl⟩)
    · exact .inl ⟨.range, by decide, by simp, rfl⟩
  | frame addr cmd len payload =>
    simp only [exec, execFrame, frameEffect]
    split
    · exact .inl ⟨.command, by decide, fun h => absurd rfl (h addr cmd len payload), rfl⟩
    · next n hn =>
      split
      · exact .inl ⟨.frameLength, by decide, fun h => absurd rfl (h addr cmd len payload), rfl⟩
      · next hl =>
        refine .inr (.inl ⟨by simp, addr, cmd, _, ?_, fun h => absurd rfl (h addr cmd len payload), rfl⟩)
        have := expectedLen_le cmd n hn
        simp at hl
        rw [hn]
        simp
        omega
  | keyLookup key =>
    simp only [exec, execKeyLookup, keyLookupEffect]
    split
    · exact .inl ⟨.unknownKey, by decide, by simp, rfl⟩
    · exact .inr (.inr ⟨key, rfl, rfl⟩)

end Sys2Proof.Machine
end

