-- ==== Sys2Proof/Laws/PerInstr.lean ====
section
/-! SUPPORT. The per-instruction family: the word of every operation carries that operation's own OP, one of the seven
assigned values of rule R61. -/

namespace Sys2Proof.Laws.OpCode

open Sys2Proof.Machine

/-- The word of an operation carries its OP, which is `0x1` to `0x7` (rule R61). -/
def Statement (i : Instr) : Prop :=
  opField (encode i) = opcode i ∧ 1 ≤ (opcode i).toNat ∧ (opcode i).toNat ≤ 7

theorem kbPress (key : Byte) (mods : BitVec 16) : Statement (.kbPress key mods) :=
  ⟨opField_encode _, by simp [opcode], by simp [opcode]⟩

theorem kbRelease : Statement .kbRelease := ⟨opField_encode _, by simp [opcode], by simp [opcode]⟩

theorem kbTrigger (nkeys : BitVec 4) (mods : BitVec 16) (keys : Vector Byte 12) :
    Statement (.kbTrigger nkeys mods keys) :=
  ⟨opField_encode _, by simp [opcode], by simp [opcode]⟩

theorem msAbs (btn : Button) (wheel x y : BitVec 16) : Statement (.msAbs btn wheel x y) :=
  ⟨opField_encode _, by simp [opcode], by simp [opcode]⟩

theorem msRel (btn : Button) (wheel dx dy : BitVec 16) : Statement (.msRel btn wheel dx dy) :=
  ⟨opField_encode _, by simp [opcode], by simp [opcode]⟩

theorem frame (addr cmd len : Byte) (payload : Vector Byte 12) : Statement (.frame addr cmd len payload) :=
  ⟨opField_encode _, by simp [opcode], by simp [opcode]⟩

theorem keyLookup (key : Byte) : Statement (.keyLookup key) := ⟨opField_encode _, by simp [opcode], by simp [opcode]⟩

end Sys2Proof.Laws.OpCode
end

