-- ==== Sys2Proof/Laws/Step.lean ====
section
/-! SUPPORT. What a step can do, said once, and the run over a list of requests. -/

namespace Sys2Proof.Machine

/-- A step answers a next state in one of three ways, and only on an instance with a nonzero resolution. -/
theorem step_cases {s t : State} (h : step s = .next t) :
    screensOk s.cfgScreenX s.cfgScreenY = true ∧
      ((s.arrivals = [] ∧ t = s) ∨
        (∃ rest, s.arrivals = .reset :: rest ∧ t = resetCore { s with arrivals := rest }) ∨
        ∃ w r rest, s.arrivals = .request w r :: rest ∧
          ((∃ i, decode w = .ok i ∧ exec i (accept r rest s) = .next t) ∨
            (∃ j, decode w = .error j) ∧ t = raiseError .illegalRequest (accept r rest s))) := by
  unfold step at h
  split at h
  · cases h
  · next hs =>
    refine ⟨by simpa using hs, ?_⟩
    split at h
    · next ha => cases h; exact .inl ⟨ha, rfl⟩
    · next rest ha => cases h; exact .inr (.inl ⟨rest, ha, rfl⟩)
    · next w r rest ha =>
      refine .inr (.inr ⟨w, r, rest, ha, ?_⟩)
      split at h
      · next i hi => exact .inl ⟨i, hi, h⟩
      · next j hj => cases h; exact .inr ⟨⟨j, hj⟩, rfl⟩

/-- A request that decodes is executed. -/
theorem step_request {s : State} {w : Request} {r : WriteResult} {rest : List Arrival} {i : Instr}
    (hs : screensOk s.cfgScreenX s.cfgScreenY = true) (ha : s.arrivals = .request w r :: rest)
    (hd : decode w = .ok i) : step s = exec i (accept r rest s) := by
  simp [step, hs, ha, hd]

/-- A request that does not decode raises IllegalRequest. -/
theorem step_illegal {s : State} {w : Request} {r : WriteResult} {rest : List Arrival} {j : DecodeReject}
    (hs : screensOk s.cfgScreenX s.cfgScreenY = true) (ha : s.arrivals = .request w r :: rest)
    (hd : decode w = .error j) : step s = .next (raiseError .illegalRequest (accept r rest s)) := by
  simp [step, hs, ha, hd]

/-- A reset gives the state after reset. -/
theorem step_reset {s : State} {rest : List Arrival} (hs : screensOk s.cfgScreenX s.cfgScreenY = true)
    (ha : s.arrivals = .reset :: rest) : step s = .next (resetCore { s with arrivals := rest }) := by
  simp [step, hs, ha]

/-- An idle core stays as it is. -/
theorem step_idle {s : State} (hs : screensOk s.cfgScreenX s.cfgScreenY = true) (ha : s.arrivals = []) :
    step s = .next s := by
  simp [step, hs, ha]

/-- The first step of a run, for any machine. -/
theorem run_succ_of_step (M : Host.Core) (k : Nat) {s t : M.State} (h : M.step s = .next t) :
    M.run (k + 1) s = M.run k t := by
  rw [Host.Core.run, h]

/-- The first step of a run. -/
theorem run_succ (k : Nat) {s t : State} (h : step s = .next t) :
    Host.Core.run Sys2Proof.core (k + 1) s = Host.Core.run Sys2Proof.core k t :=
  run_succ_of_step Sys2Proof.core k h

/-- A run of no steps. -/
theorem run_zero (s : State) : Host.Core.run Sys2Proof.core 0 s = .next s := rfl

end Sys2Proof.Machine
end

