-- ==== Sys2Proof/Tests/Slice0.lean ====
section
/-! SUPPORT. Tests, whose expected values are the spec's (the vector of spec/95_test_vectors.md is named in each), the smoke
test of the well-formedness check, and for every statement with hypotheses a state and operands that meet them. -/

namespace Sys2Proof.Machine.Tests

/-! ## Helpers -/

/-- `State.reset` with one request presented. -/
def onPort (w : Request) (r : WriteResult) : State := State.reset.presenting w r []

/-- TX and RESP of a next state. -/
def output : Host.Outcome State Fault Refusal → Option (List Byte × BitVec 32)
  | .next s => some (s.tx, s.resp)
  | .fault _ => none
  | .refused _ => none

/-- The refusal of an outcome. -/
def refusalOf : Host.Outcome State Fault Refusal → Option Refusal
  | .next _ => none
  | .fault _ => none
  | .refused r => some r

/-- `State.reset` with a failing transport, for the statements about one operation. -/
def failing (k : Nat) : State := { State.reset with reply := .ioError k }

/-- Entries with the given first ones, then 0. -/
def entriesOf (bs : List Byte) : Vector Byte 12 := Vector.ofFn fun i => bs.getD i.val 0

/-- The number of set bits among bits 0 to 15, as the statements count them. -/
def setBits (m : BitVec 16) : Nat := (Finset.univ.filter fun j : Fin 16 => m.getLsbD j.val = true).card

/-- The default instance with the given screen. -/
def screenInstance (x y : BitVec 16) : Instance := { defaultInstance with screenX := x, screenY := y }

/-! ## Decoding, by the words of rule R73 -/

theorem test_decode_kbPress : decode 0x00000000_00000000_00000000_00016101 = .ok (.kbPress 0x61 0x0001) := by decide

theorem test_decode_kbRelease : decode 0x00000000_00000000_00000000_00000002 = .ok .kbRelease := by decide

theorem test_decode_kbTrigger : decode 0x00000000_00000000_00006261_00820023 =
    .ok (.kbTrigger 2 0x0082 (entriesOf [0x61, 0x62])) := by decide

theorem test_decode_msAbs : decode 0x00000000_00000000_021C03C0_00000104 = .ok (.msAbs .left 0 960 540) := by decide

theorem test_decode_msRel : decode 0x00000000_00000000_0005FFF6_FFFD0005 =
    .ok (.msRel .none (BitVec.ofInt 16 (-3)) (BitVec.ofInt 16 (-10)) 5) := by decide

theorem test_decode_frame : decode 0x00000000_000000FD_05F60001_05050006 =
    .ok (.frame 0x00 0x05 5 (entriesOf [0x01, 0x00, 0xF6, 0x05, 0xFD])) := by decide

theorem test_decode_keyLookup : decode 0x00000000_00000000_00000000_00004107 = .ok (.keyLookup 0x41) := by decide

/-- KEY_11 is REQ[127:120], and NKEYS above 12 still decodes (rules R64 and R128). -/
theorem test_decode_last_entry : decode 0x0C000000_00000000_00000000_000000F3 =
    .ok (.kbTrigger 15 0 (entriesOf [0, 0, 0, 0, 0, 0, 0, 0, 0, 0, 0, 0x0C])) := by decide

theorem test_decode_unassigned : decode 0xFFFFFFFF_FFFFFFFF_FFFFFFFF_FFFFFFFF = .error (.unassignedOp 0xF) := by decide

theorem test_encode_frame : encode (.frame 0x00 0x05 5 (entriesOf [0x01, 0x00, 0xF6, 0x05, 0xFD])) =
    0x00000000_000000FD_05F60001_05050006 := by decide

theorem test_decodeTableWord : decodeTableWord 8 0x03 = some (.kbTrigger 0 0 (entriesOf [])) := by decide

/-! ## The well-formedness check refuses -/

theorem test_wellFormed_accepts :
    (Instr.kbTrigger 2 0 (entriesOf [0x61, 0x62])).wellFormed = true ∧
      (Instr.frame 0 5 5 (entriesOf [1, 0, 0, 0, 0])).wellFormed = true := by decide

theorem test_wellFormed_refuses_13_keys : (Instr.kbTrigger 13 0 (entriesOf [])).wellFormed = false := by decide

theorem test_wellFormed_refuses_unread_key : (Instr.kbTrigger 1 0 (entriesOf [0x61, 0x62])).wellFormed = false := by
  decide

theorem test_wellFormed_refuses_13_bytes : (Instr.frame 0 2 13 (entriesOf [])).wellFormed = false := by decide

theorem test_wellFormed_refuses_unread_byte : (Instr.frame 0 5 1 (entriesOf [1, 2])).wellFormed = false := by decide

/-! ## One step of each operation, from reset -/

/-- V1 -/
theorem test_kbPress_a : output (step (onPort 0x00000000_00000000_00000000_00006101 .ok)) =
    some ([0x57, 0xAB, 0x00, 0x02, 0x08, 0x00, 0x00, 0x04, 0x00, 0x00, 0x00, 0x00, 0x00, 0x10], 0) := by decide

/-- P4 -/
theorem test_kbPress_shift_right : output (step (onPort 0x00000000_00000000_00000000_00204101 .ok)) =
    some ([0x57, 0xAB, 0x00, 0x02, 0x08, 0x22, 0x00, 0x04, 0x00, 0x00, 0x00, 0x00, 0x00, 0x32], 0) := by decide

/-- R1 -/
theorem test_kbRelease : output (step (onPort 0x00000000_00000000_00000000_00000002 .ok)) =
    some ([0x57, 0xAB, 0x00, 0x02, 0x08, 0x00, 0x00, 0x00, 0x00, 0x00, 0x00, 0x00, 0x00, 0x0C], 0) := by decide

/-- X1, for the prefix of 5 bytes -/
theorem test_kbRelease_transport_failure : output (step (onPort 0x00000000_00000000_00000000_00000002 (.ioError 5))) =
    some ([0x57, 0xAB, 0x00, 0x02, 0x08], 8) := by decide

/-- T3 -/
theorem test_kbTrigger_repeats : output (step (onPort 0x00000000_62616665_64636261_00000083 .ok)) =
    some ([0x57, 0xAB, 0x00, 0x02, 0x08, 0x00, 0x00, 0x04, 0x05, 0x06, 0x07, 0x08, 0x09, 0x33], 0) := by decide

/-- Rule R128, decision D16: eight names and bit 12 are nine names -/
theorem test_kbTrigger_counts_unknown_names : output (step (onPort 0x00000000_00000000_00000061_10FF0013 .ok)) =
    some ([], 3) := by decide

/-- T13, on the instance with TRIGGER_APPLIES_SHIFT = true -/
theorem test_kbTrigger_applies_shift :
    output (step { onPort 0x00000000_00000000_00004161_00000023 .ok with triggerAppliesShift := true }) =
      some ([0x57, 0xAB, 0x00, 0x02, 0x08, 0x02, 0x00, 0x04, 0x04, 0x00, 0x00, 0x00, 0x00, 0x16], 0) := by decide

/-- A3 -/
theorem test_msAbs_corner : output (step (onPort 0x00000000_00000000_0437077F_00000004 .ok)) =
    some ([0x57, 0xAB, 0x00, 0x04, 0x07, 0x02, 0x00, 0xFD, 0x0F, 0xFC, 0x0F, 0x00, 0x26], 0) := by decide

/-- A4 -/
theorem test_msAbs_out_of_bounds : output (step (onPort 0x00000000_00000000_00000780_00000004 .ok)) = some ([], 4) := by
  decide

/-- V3 -/
theorem test_msRel_negative : output (step (onPort 0x00000000_00000000_0005FFF6_FFFD0005 .ok)) =
    some ([0x57, 0xAB, 0x00, 0x05, 0x05, 0x01, 0x00, 0xF6, 0x05, 0xFD, 0x05], 0) := by decide

/-- M3 -/
theorem test_msRel_minus_128 : output (step (onPort 0x00000000_00000000_0000FF80_00000005 .ok)) = some ([], 4) := by
  decide

/-- F3 -/
theorem test_frame_any_address : output (step (onPort 0x00000000_FFFFFFFF_FFFFFFFF_0802FF06 .ok)) =
    some ([0x57, 0xAB, 0xFF, 0x02, 0x08, 0xFF, 0xFF, 0xFF, 0xFF, 0xFF, 0xFF, 0xFF, 0xFF, 0x03], 0) := by decide

/-- F6 -/
theorem test_frame_command_before_length : output (step (onPort 0x00000000_00000000_00000000_01030006 .ok)) =
    some ([], 6) := by decide

/-- K5 -/
theorem test_keyLookup_shifted : output (step (onPort 0x00000000_00000000_00000000_00007E07 .ok)) =
    some ([], 0x00013500) := by decide

/-- K13 -/
theorem test_keyLookup_unknown : output (step (onPort 0x00000000_00000000_00000000_00009E07 .ok)) = some ([], 1) := by
  decide

/-- I2 -/
theorem test_illegal_op : output (step (onPort 0x00000000_00000000_00000000_00000008 .ok)) = some ([], 7) := by decide

/-! ## Instances -/

theorem defaultInstance_accepted : instanceRefusal defaultInstance = none := by decide +kernel

theorem powerOn_default : powerOn defaultInstance = .next State.reset := by
  rw [powerOn, defaultInstance_accepted]
  rfl

theorem test_powerOn_zero : refusalOf (powerOn (screenInstance 1920 0)) = some .zeroResolution := by decide

/-- A MOD_BIT in which all names share bit 0 breaks rule R121. -/
theorem test_powerOn_modBit : refusalOf (powerOn { defaultInstance with modBit := Vector.replicate 12 0 }) =
    some .badModBit := by decide

/-- A KEY_ROM without the entries of rule R106. -/
theorem test_powerOn_keyRom :
    refusalOf (powerOn { defaultInstance with keyRom := Vector.replicate 256 romInvalid }) = some .badKeyRom := by
  decide +kernel

theorem test_powerOn_unarbitrated :
    refusalOf (powerOn { defaultInstance with requesters := .unarbitrated }) = some .unarbitratedRequesters := by
  decide +kernel

/-! ## Parsing and the assembler -/

/-- A frame with a wrong checksum is not one (rule R88). -/
theorem test_parse_bad_sum : parseFrame [0x57, 0xAB, 0x00, 0x05, 0x01, 0x07, 0x00] = none := by decide

/-- Rule R73, with a comment -/
theorem test_assemble_rel : (assembleLine "ms.rel -10, 5, null, -3 ; scroll".toList).map (·.map encode) =
    some [0x00000000_00000000_0005FFF6_FFFD0005] := by decide

/-- Rule R73 and the braces of a modifier set -/
theorem test_assemble_trigger :
    (assembleLine ("kb.trigger ['a', 'b'], ".toList ++ [Char.ofNat 0x7B] ++ "ctrl_left, alt_left".toList ++
      [Char.ofNat 0x7D])).map (·.map encode) = some [0x00000000_00000000_00006261_00820023] := by decide

/-- L3.1 -/
theorem test_assemble_type : (assembleLine "kb.type \"Hi\"".toList).map (·.map encode) =
    some [0x4801, 0x0002, 0x6901, 0x0002] := by decide

theorem test_assemble_rejects_wide : assembleLine "ms.abs 65536, 0, none, 0".toList = none := by decide

/-- Rule R71 -/
theorem test_requestLine : requestLine (.msRel .left 0xFFFD 0xFFF6 0x0005) =
    "ms.rel -0x000A, 0x0005, left, -0x0003".toList := by decide

/-! ## Witnesses -/

theorem witness_FrameLayout : (List.replicate 255 (0 : Byte)).length ≤ 255 ∧ 254 < (List.replicate 255 (0 : Byte)).length := by
  rw [List.length_replicate]; decide

theorem witness_ChecksumIsSumOfAllPriorBytes : (List.replicate 255 (0 : Byte)).length ≤ 255 := by
  rw [List.length_replicate]

theorem witness_ChecksumShortForm : ([1, 2] : List Byte).Perm [2, 1] := by decide

theorem witness_ParseAcceptsExactlyFrames :
    parseFrame (buildFrame 0 0x05 [1, 2, 3]) = some (0, 0x05, [1, 2, 3]) := by decide

theorem witness_FrameRequestOutcome_command : (3 : Byte) ≠ 0x02 ∧ (3 : Byte) ≠ 0x04 ∧ (3 : Byte) ≠ 0x05 := by decide

theorem witness_FrameRequestOutcome_length : ((0x02 : Byte) = 0x02 ∧ (8 : Nat) = 8) ∧ (9 : Byte).toNat ≠ 8 := by decide

theorem witness_FrameRequestOutcome_ok :
    ((0x04 : Byte) = 0x04 ∧ (7 : Nat) = 7) ∧ (7 : Byte).toNat = 7 ∧ State.reset.reply = .ok := by decide

theorem witness_FrameRequestOutcome_ioError :
    ((0x05 : Byte) = 0x05 ∧ (5 : Nat) = 5) ∧ (5 : Byte).toNat = 5 ∧ (failing 3).reply = .ioError 3 := by decide

theorem witness_EncoderFramesHaveFixedSizes :
    (∀ a c l p, Instr.kbRelease ≠ .frame a c l p) ∧ (∃ t, exec .kbRelease State.reset = .next t) ∧
      State.reset.reply = .ok := ⟨by simp, ⟨_, rfl⟩, rfl⟩

theorem witness_EmittedFrameLengthMatchesLenByte :
    (∃ t, exec .kbRelease State.reset = .next t) ∧ State.reset.reply = .ok := ⟨⟨_, rfl⟩, rfl⟩

theorem witness_ListedKeysAndOnlyThoseAreKnown_listed :
    State.reset.keyRom = defaultKeyRom ∧ (entriesOf [0x9D])[0] = 0x9D ∧ listedKey 0x9D ∧ State.reset.reply = .ok :=
  ⟨rfl, by decide, by decide, rfl⟩

theorem witness_ListedKeysAndOnlyThoseAreKnown_unlisted :
    State.reset.keyRom = defaultKeyRom ∧ (entriesOf [0x7F])[0] = 0x7F ∧ ¬ listedKey 0x7F := ⟨rfl, by decide, by decide⟩

theorem witness_KeyLookupOutcome :
    (romRead State.reset.keyRom 0x9E).valid = false ∧ (romRead State.reset.keyRom 0x20).valid = true := by decide

theorem witness_LookupOfLetterAIsPinned : powerOn defaultInstance = .next State.reset := powerOn_default

theorem witness_LetterAndDigitScanCodes : 25 < 26 ∧ 8 < 9 := by decide

theorem witness_PunctuationAndNamedKeyScanCodes : 3 < 4 ∧ 25 < 26 := by decide

theorem witness_ModifierNamesShareBitsOnlyByAliasing : powerOn defaultInstance = .next State.reset := powerOn_default

theorem witness_ImplicitShiftIsDeduplicated :
    powerOn defaultInstance = .next State.reset ∧ (0x008 : BitVec 12).getLsbD (modPos .shift).val = true ∧
      (0x010 : BitVec 12).getLsbD (modPos .shiftLeft).val = true := ⟨powerOn_default, by decide, by decide⟩

theorem witness_KbPressOutcome_unknownKey : (romRead State.reset.keyRom 0x00).valid = false := by decide

theorem witness_KbPressOutcome_unknownModifier :
    (romRead State.reset.keyRom 0x41).valid = true ∧ (0x1000 : BitVec 16).extractLsb' 12 4 ≠ 0 := by decide

theorem witness_KbPressOutcome_sent :
    (romRead State.reset.keyRom 0x41).valid = true ∧ (0x0FFF : BitVec 16).extractLsb' 12 4 = 0 ∧
      State.reset.reply = .ok ∧ (failing 0).reply = .ioError 0 := by decide

theorem witness_KbReleaseOutcome : State.reset.reply = .ok ∧ (failing 14).reply = .ioError 14 := by decide

theorem witness_KbTriggerOutcome_illegal : 12 < (13 : BitVec 4).toNat := by decide

theorem witness_KbTriggerOutcome_tooManyKeys :
    (7 : BitVec 4).toNat ≤ 12 ∧
      6 < (dedup ((entriesOf [0x61, 0x62, 0x63, 0x64, 0x65, 0x66, 0x67]).toList.take (7 : BitVec 4).toNat)).length := by
  decide

theorem witness_KbTriggerOutcome_tooManyModifiers : (1 : BitVec 4).toNat ≤ 12 ∧ 8 < setBits 0x06DF := by decide

/-- Nine names only if bits 12 to 15 count (decision D16). -/
theorem witness_KbTriggerOutcome_tooManyModifiers_high :
    (1 : BitVec 4).toNat ≤ 12 ∧ 8 < setBits 0x10FF ∧ setBits (0x10FF &&& 0x0FFF) = 8 := by decide

theorem witness_KbTriggerOutcome_unknownModifier :
    (0 : BitVec 4).toNat ≤ 12 ∧ (dedup ((entriesOf []).toList.take (0 : BitVec 4).toNat)).length ≤ 6 ∧
      setBits 0xF00F ≤ 8 ∧ (0xF00F : BitVec 16).extractLsb' 12 4 ≠ 0 := by decide

theorem witness_KbTriggerOutcome_unknownKey :
    (3 : BitVec 4).toNat ≤ 12 ∧
      (dedup ((entriesOf [0x61, 0x00, 0x62]).toList.take (3 : BitVec 4).toNat)).length ≤ 6 ∧ setBits 0 ≤ 8 ∧
      (0 : BitVec 16).extractLsb' 12 4 = 0 ∧
      ∃ e ∈ (dedup ((entriesOf [0x61, 0x00, 0x62]).toList.take (3 : BitVec 4).toNat)).map (romRead State.reset.keyRom),
        e.valid = false := by decide

theorem witness_KbTriggerOutcome_sent :
    (12 : BitVec 4).toNat ≤ 12 ∧
      (dedup ((entriesOf [0x61, 0x61, 0x61, 0x61, 0x61, 0x61, 0x61, 0x62, 0x63, 0x64, 0x65, 0x66]).toList.take
        (12 : BitVec 4).toNat)).length ≤ 6 ∧ setBits 0x06DB ≤ 8 ∧ (0x06DB : BitVec 16).extractLsb' 12 4 = 0 ∧
      (∀ e ∈ (dedup ((entriesOf [0x61, 0x61, 0x61, 0x61, 0x61, 0x61, 0x61, 0x62, 0x63, 0x64, 0x65, 0x66]).toList.take
        (12 : BitVec 4).toNat)).map (romRead State.reset.keyRom), e.valid = true) ∧
      State.reset.reply = .ok ∧ (failing 6).reply = .ioError 6 := by decide

theorem witness_TriggerOfOneKeyIsPress :
    (entriesOf [0x61])[0] = 0x61 ∧ (romRead State.reset.keyRom 0x61).shift = false ∧ setBits 0x06DB ≤ 8 ∧
      ((romRead State.reset.keyRom 0x61).valid = true ∨ (0x06DB : BitVec 16).extractLsb' 12 4 = 0) := by decide

theorem witness_WheelByteEncoding :
    ((-128 : Int) < -127 ∧ (127 : Int) < 128) ∧ ((0 : Int) ≤ 127 ∧ (127 : Int) ≤ 127) ∧
      ((-127 : Int) ≤ -127 ∧ (-127 : Int) < 0) := by decide

theorem witness_DeltaByteEncoding :
    ((-128 : Int) < -127 ∧ (127 : Int) < 128) ∧ ((-127 : Int) ≤ -127 ∧ (-127 : Int) ≤ 127) := by decide

theorem witness_ScaleRoundsDown : 1 ≤ (1 : BitVec 16).toNat := by decide

theorem witness_ScaleLaws :
    (3 : BitVec 16).toNat ≤ (4 : BitVec 16).toNat ∧ 1 ≤ (1080 : BitVec 16).toNat ∧
      (1080 : BitVec 16).toNat = 2 * (540 : BitVec 16).toNat := by decide

theorem witness_MsAbsOutcome_wheel :
    (0xFF80 : BitVec 16).toInt < -127 ∧ 127 < (0x0080 : BitVec 16).toInt := by decide

theorem witness_MsAbsOutcome_bounds :
    State.reset.cfgScreenX.toNat ≤ (1920 : BitVec 16).toNat ∧ State.reset.cfgScreenY.toNat ≤ (1080 : BitVec 16).toNat := by
  decide

theorem witness_MsAbsOutcome_sent :
    -127 ≤ (0xFF81 : BitVec 16).toInt ∧ (0xFF81 : BitVec 16).toInt ≤ 127 ∧
      (1919 : BitVec 16).toNat < State.reset.cfgScreenX.toNat ∧ (1079 : BitVec 16).toNat < State.reset.cfgScreenY.toNat ∧
      State.reset.reply = .ok ∧ (failing 12).reply = .ioError 12 := by decide

theorem witness_AbsoluteCoordinatesFitTheGrid :
    State.reset.reply = .ok ∧ ∃ t, exec (.msAbs .left 0 1919 1079) State.reset = .next t ∧ statusOf t.resp = 0 :=
  ⟨rfl, _, rfl, by decide⟩

theorem witness_MsRelOutcome_range :
    (0xFF80 : BitVec 16).toInt < -127 ∧ 127 < (0x0080 : BitVec 16).toInt := by decide

theorem witness_MsRelOutcome_sent :
    -127 ≤ (0xFF81 : BitVec 16).toInt ∧ (0x007F : BitVec 16).toInt ≤ 127 ∧ State.reset.reply = .ok ∧
      (failing 1).reply = .ioError 1 := by decide

theorem witness_OnlyMsAbsReadsTheScreen : ∀ b w x y, Instr.msRel .left 0 0 0 ≠ .msAbs b w x y := by simp

theorem witness_ErrorsChangeOnlyResp_exec :
    ∃ t, exec (.keyLookup 0x00) State.reset = .next t ∧ statusOf t.resp ≠ 0 ∧ statusOf t.resp ≠ 8 :=
  ⟨_, rfl, by decide, by decide⟩

theorem witness_ErrorsChangeOnlyResp_step :
    (onPort 0 .ok).arrivals = [.request 0 .ok] ∧
      ∃ t, step (onPort 0 .ok) = .next t ∧ statusOf t.resp ≠ 0 ∧ statusOf t.resp ≠ 8 :=
  ⟨rfl, _, rfl, by decide, by decide⟩

theorem witness_TransportFailureLeavesAPrefix :
    ∃ t f, exec .kbRelease { State.reset with reply := .ok } = .next t ∧ t.tx = State.reset.tx ++ f ∧ f ≠ [] ∧
      ([0x57, 0xAB] : List Byte) <+: f :=
  ⟨_, _, rfl, rfl, by decide, by decide⟩

theorem witness_StatusTellsWhetherAFrameWasSent :
    (∃ t, exec .kbRelease State.reset = .next t ∧ statusOf t.resp = 0 ∧ ∀ k, Instr.kbRelease ≠ .keyLookup k) ∧
      ∃ t, exec (.kbPress 0 0) State.reset = .next t ∧ statusOf t.resp ≠ 0 ∧ statusOf t.resp ≠ 8 :=
  ⟨⟨_, rfl, by decide, by simp⟩, _, rfl, by decide, by decide⟩

theorem witness_OperationsChangeOnlyTxAndResp : ∃ t, exec (.keyLookup 0x61) State.reset = .next t := ⟨_, rfl⟩

theorem witness_OutcomeIndependentOfHistory :
    SameConfig State.reset (appendTx [0x57] (raiseError .range State.reset)) ∧
      (appendTx [0x57] (raiseError .range State.reset)).reply = State.reset.reply :=
  ⟨⟨rfl, rfl, rfl, rfl, rfl, rfl⟩, rfl⟩

theorem witness_NoStepWritesTheConfiguration : ∃ t, step (onPort 0x6101 .ok) = .next t := ⟨_, rfl⟩

theorem witness_StepRunsTheDecodedRequest :
    screensOk (onPort 0x2 .ok).cfgScreenX (onPort 0x2 .ok).cfgScreenY = true ∧
      (onPort 0x2 .ok).arrivals = [.request 0x2 .ok] ∧ decode 0x2 = .ok .kbRelease := ⟨by decide, rfl, by decide⟩

theorem witness_UnassignedOperationsAreIllegal :
    ((0x0 : Request).extractLsb' 0 4).toNat = 0 ∧ 8 ≤ ((0x8 : Request).extractLsb' 0 4).toNat ∧
      screensOk (onPort 0x8 .ok).cfgScreenX (onPort 0x8 .ok).cfgScreenY = true ∧
      (onPort 0x8 .ok).arrivals = [.request 0x8 .ok] := ⟨by decide, by decide, by decide, rfl⟩

/-- Vectors P1 and P11, F1 and F8, and a KB_TRIGGER with an entry it does not read. -/
theorem witness_IgnoredBitsHaveNoEffect :
    (0x6101 : Request) &&& readMask 0x6101 = 0x00000000_DEADBEEF_00000000_000061F1 &&& readMask 0x6101 ∧
      (0x00000000_000000FD_05F60001_05050006 : Request) &&& readMask 0x00000000_000000FD_05F60001_05050006 =
        0x00000000_00BBAAFD_05F60001_05050006 &&& readMask 0x00000000_000000FD_05F60001_05050006 ∧
      (0x61_00000013 : Request) &&& readMask 0x61_00000013 = 0x6261_0000FF13 &&& readMask 0x61_00000013 := by decide

theorem witness_IdleCoreHoldsItsState :
    screensOk State.reset.cfgScreenX State.reset.cfgScreenY = true ∧ State.reset.arrivals = [] := ⟨by decide, rfl⟩

theorem witness_OneStepPerRequest :
    screensOk (onPort 0 (.ioError 0)).cfgScreenX (onPort 0 (.ioError 0)).cfgScreenY = true ∧
      (onPort 0 (.ioError 0)).arrivals = [.request 0 (.ioError 0)] := ⟨by decide, rfl⟩

theorem witness_RunConcatenatesRequestsInOrder :
    screensOk State.reset.cfgScreenX State.reset.cfgScreenY = true ∧
      (present [.request 0x6101 .ok, .request 0x2 (.ioError 3)] State.reset).arrivals =
        [((0x6101 : Request), WriteResult.ok), (0x2, .ioError 3)].map fun p => Arrival.request p.1 p.2 :=
  ⟨by decide, rfl⟩

theorem witness_ResetState :
    screensOk State.reset.cfgScreenX State.reset.cfgScreenY = true ∧
      (present [.reset, .request 0x2 .ok] State.reset).arrivals = [.reset, .request 0x2 .ok] := ⟨by decide, rfl⟩

theorem witness_ZeroResolutionIsRefused_zero :
    (screenInstance 0 1).screenX = 0 ∧ (State.ofInstance (screenInstance 1 0)).cfgScreenY = 0 := ⟨rfl, rfl⟩

theorem witness_ZeroResolutionIsRefused_accepted :
    (screenInstance 1 0xFFFF).screenX ≠ 0 ∧ (screenInstance 1 0xFFFF).screenY ≠ 0 ∧
      modBitOk (screenInstance 1 0xFFFF).modBit = true ∧ keyRomOk (screenInstance 1 0xFFFF).keyRom = true ∧
      (screenInstance 1 0xFFFF).requesters ≠ .unarbitrated := by decide +kernel

theorem witness_InstancesOutsideTheRulesAreRefused_modBit :
    defaultInstance.screenX ≠ 0 ∧ defaultInstance.screenY ≠ 0 ∧
      ∃ a b : ModName, ¬ (modBitOf (Vector.replicate 12 0) a = modBitOf (Vector.replicate 12 0) b ↔ aliased a b) :=
  ⟨by decide, by decide, .ctrl, .win, by decide⟩

theorem witness_InstancesOutsideTheRulesAreRefused_keyRom :
    modBitOk defaultModBit = true ∧
      romRead (defaultKeyRom.set 0x61 (romPlain 0x05)) 0x61 ≠ { valid := true, scan := 0x04, shift := false } ∧
      (romRead (defaultKeyRom.set 0x00 { valid := false, scan := 1, shift := false }) 0x00).valid = false ∧
      (romRead (defaultKeyRom.set 0x00 { valid := false, scan := 1, shift := false }) 0x00).scan ≠ 0 ∧
      romRead (defaultKeyRom.set 0x41 (romPlain 0x04)) 0x41 ≠ { valid := true, scan := 0x04, shift := true } := by
  decide +kernel

theorem witness_InstancesOutsideTheRulesAreRefused_requesters :
    modBitOk defaultModBit = true ∧ keyRomOk defaultKeyRom = true ∧
      ({ defaultInstance with requesters := .unarbitrated } : Instance).requesters = .unarbitrated := by decide +kernel

theorem witness_ResetMeetsTheInvariant : powerOn defaultInstance = .next State.reset := powerOn_default

theorem witness_StepKeepsTheInvariant :
    (onPort 0x4107 .ok).Inv ∧ ∃ t, step (onPort 0x4107 .ok) = .next t := ⟨by decide +kernel, _, rfl⟩

theorem witness_StepKeepsWholeFrames :
    (onPort 0x6101 .ok).RepliesOk ∧ WholeFrames (onPort 0x6101 .ok).tx ∧ ∃ t, step (onPort 0x6101 .ok) = .next t :=
  ⟨by decide, ⟨[], rfl, by simp⟩, _, rfl⟩

theorem witness_EncodeInvertsDecode :
    decode 0x00000000_DEADBEEF_00000000_000061F1 = .ok (.kbPress 0x61 0) := by decide

theorem witness_TapAndClickSendTwoFrames :
    screensOk State.reset.cfgScreenX State.reset.cfgScreenY = true ∧ (romRead State.reset.keyRom 0x48).valid = true ∧
      (0x0FFF : BitVec 16).extractLsb' 12 4 = 0 ∧
      (present (okRequests (expandPseudo (.kbTap 0x48 0x0FFF))) State.reset).arrivals =
        okRequests (expandPseudo (.kbTap 0x48 0x0FFF)) ∧
      (present (okRequests (expandPseudo (.msClick .right))) State.reset).arrivals =
        okRequests (expandPseudo (.msClick .right)) := ⟨by decide, by decide, by decide, rfl, rfl⟩

theorem witness_MousePseudoOperationsSendOneReport :
    screensOk State.reset.cfgScreenX State.reset.cfgScreenY = true ∧
      (∀ p ∈ [Pseudo.msPress .left, .msRelease, .msMoveRel 0x007F 0xFF81, .msMoveRel 0xFF80 0, .msMoveAbs 1919 1079,
          .msMoveAbs 1920 0],
        (present (okRequests (expandPseudo p)) State.reset).arrivals = okRequests (expandPseudo p)) ∧
      (-127 ≤ (0xFF81 : BitVec 16).toInt ∧ ¬ -127 ≤ (0xFF80 : BitVec 16).toInt) ∧
      ((1919 : BitVec 16).toNat < State.reset.cfgScreenX.toNat ∧ ¬ (1920 : BitVec 16).toNat < State.reset.cfgScreenX.toNat) :=
  ⟨by decide, by intros; rfl, by decide, by decide⟩

theorem witness_TypeSendsAPressAndAReleasePerCharacter :
    screensOk State.reset.cfgScreenX State.reset.cfgScreenY = true ∧
      (present (okRequests (expandPseudo (.kbType [0x48, 0x0A, 0x69]))) State.reset).arrivals =
        okRequests (expandPseudo (.kbType [0x48, 0x0A, 0x69])) ∧
      ([0x48, 0x0A, 0x69] : List Byte) = [0x48] ++ 0x0A :: [0x69] := ⟨by decide, rfl, rfl⟩

theorem witness_AssemblerReadsEveryRequest :
    (Instr.kbTrigger 12 0xFFFF (Vector.replicate 12 0xFF)).wellFormed = true ∧
      (Instr.frame 0xFF 0xFF 0 (entriesOf [])).wellFormed = true := by decide

theorem witness_AssemblerWritesWellFormedRequests :
    assembleLine "kb.tap f12".toList = some [.kbPress 0x90 0, .kbRelease] := by decide

end Sys2Proof.Machine.Tests
end

/-! Reset: what each field of an instance's state after reset holds (rules R30 and R210), what a taken reset changes and
keeps, and obligation O43. -/

namespace Sys2Proof.Machine

section OfInstance

variable (p : Instance)

@[simp] theorem ofInstance_resp : (State.ofInstance p).resp = 0 := rfl
@[simp] theorem ofInstance_cfgScreenX : (State.ofInstance p).cfgScreenX = p.screenX := rfl
@[simp] theorem ofInstance_cfgScreenY : (State.ofInstance p).cfgScreenY = p.screenY := rfl
@[simp] theorem ofInstance_keyRom : (State.ofInstance p).keyRom = p.keyRom := rfl
@[simp] theorem ofInstance_modBit : (State.ofInstance p).modBit = p.modBit := rfl
@[simp] theorem ofInstance_btnCode : (State.ofInstance p).btnCode = p.btnCode := rfl
@[simp] theorem ofInstance_tx : (State.ofInstance p).tx = [] := rfl
@[simp] theorem ofInstance_triggerAppliesShift :
    (State.ofInstance p).triggerAppliesShift = p.triggerAppliesShift := rfl
@[simp] theorem ofInstance_arrivals : (State.ofInstance p).arrivals = [] := rfl

end OfInstance

/-- Taking an arrival off the port touches no configuration field. -/
theorem sameConfig_withArrivals (s : State) (as : List Arrival) : SameConfig s { s with arrivals := as } :=
  ⟨rfl, rfl, rfl, rfl, rfl, rfl⟩

/-- A reset that is taken from the port keeps the configuration (log 12). -/
theorem sameConfig_resetCore_withArrivals (s : State) (as : List Arrival) :
    SameConfig s (resetCore { s with arrivals := as }) :=
  (sameConfig_withArrivals s as).trans (sameConfig_resetCore _)

/-- Settles O43: the state after reset field by field from the instance, and a later reset by `step_reset` with the
field lemmas of `resetCore`. -/
theorem resetState : Obligations.ResetState := by
  unfold Obligations.ResetState
  constructor
  · intro p
    simp
  · intro s rest hscreen harrivals
    exact ⟨resetCore { s with arrivals := rest }, step_reset hscreen harrivals, resetCore_resp _, resetCore_tx _,
      resetCore_arrivals _, sameConfig_resetCore_withArrivals s rest⟩

end Sys2Proof.Machine

/-! The configuration through an operation and through a step (rules R9, R25 and R27), and obligation O36. -/

namespace Sys2Proof.Machine

/-- Handing a frame to the transport keeps the configuration, whatever the transport answers. -/
theorem sameConfig_transmit (f : List Byte) (s : State) : SameConfig s (transmit f s) := by
  obtain ⟨-, htransmit⟩ | ⟨k, -, htransmit⟩ := transmit_cases f s
  · rw [htransmit]
    exact (sameConfig_appendTx s _).trans (sameConfig_respond _ _)
  · rw [htransmit]
    exact (sameConfig_appendTx s _).trans (sameConfig_raiseError _ _)

/-- An operation keeps the configuration: it raises an error, hands over a frame or answers a lookup. -/
theorem sameConfig_of_exec {i : Instr} {s t : State} (h : exec i s = .next t) : SameConfig s t := by
  obtain ⟨e, -, -, hexec⟩ | ⟨-, addr, cmd, payload, -, -, hexec⟩ | ⟨k, -, hexec⟩ := exec_cases i s
  · cases hexec.symm.trans h
    exact sameConfig_raiseError s e
  · cases hexec.symm.trans h
    exact sameConfig_transmit _ s
  · cases hexec.symm.trans h
    exact sameConfig_respond s _

/-- Settles O36: of what a step can do, an idle step changes nothing, a reset keeps the configuration (log 12), and a
request is accepted and then executed, or refused as illegal, each of which keeps it. -/
theorem noStepWritesTheConfiguration : Obligations.NoStepWritesTheConfiguration := by
  unfold Obligations.NoStepWritesTheConfiguration
  intro s t h
  obtain ⟨-, ⟨-, rfl⟩ | ⟨rest, -, rfl⟩ | ⟨w, r, rest, -, ⟨i, -, hexec⟩ | ⟨-, rfl⟩⟩⟩ := step_cases h
  · exact sameConfig_refl _
  · exact sameConfig_resetCore_withArrivals s rest
  · exact (sameConfig_accept s _ _).trans (sameConfig_of_exec hexec)
  · exact (sameConfig_accept s _ _).trans (sameConfig_raiseError _ _)

end Sys2Proof.Machine

/-! What a request appends and answers is settled by its word, the transport's answer and the configuration alone, so a run
of requests appends what each appends by itself (rule R50); and obligation O42. -/

namespace Sys2Proof.Machine

/-! ### A state under another configuration -/

/-- The state `h` under the configuration of `c`: the fields of `SameConfig` are those of `c`, all others those of `h`. -/
def State.configuredBy (c h : State) : State :=
  { h with
    cfgScreenX := c.cfgScreenX, cfgScreenY := c.cfgScreenY, keyRom := c.keyRom, modBit := c.modBit
    btnCode := c.btnCode, triggerAppliesShift := c.triggerAppliesShift }

section ConfiguredBy

variable (c h : State)

@[simp] theorem configuredBy_cfgScreenX : (c.configuredBy h).cfgScreenX = c.cfgScreenX := rfl
@[simp] theorem configuredBy_cfgScreenY : (c.configuredBy h).cfgScreenY = c.cfgScreenY := rfl
@[simp] theorem configuredBy_keyRom : (c.configuredBy h).keyRom = c.keyRom := rfl
@[simp] theorem configuredBy_modBit : (c.configuredBy h).modBit = c.modBit := rfl
@[simp] theorem configuredBy_btnCode : (c.configuredBy h).btnCode = c.btnCode := rfl
@[simp] theorem triggerReport_configuredBy (mods : BitVec 16) (es : List RomEntry) :
    triggerReport (c.configuredBy h) mods es = triggerReport c mods es := rfl

end ConfiguredBy

/-- A state that has the configuration of `c` already stays as it is. -/
theorem configuredBy_eq_self {c s : State} (hconfig : SameConfig c s) : c.configuredBy s = s := by
  obtain ⟨hx, hy, hrom, hmod, hbtn, htrigger⟩ := hconfig
  rw [State.configuredBy, ← hx, ← hy, ← hrom, ← hmod, ← hbtn, ← htrigger]

/-! ### The configuration decides what an operation does -/

/-- The configuration of `c` decides what the effect `f` does: write one value to RESP, or hand over one frame, the same
whatever the rest of the state holds. -/
def DecidedBy (c : State) (f : State → State) : Prop :=
  (∃ v, ∀ h, f (c.configuredBy h) = respond v (c.configuredBy h)) ∨
    ∃ frame, ∀ h, f (c.configuredBy h) = transmit frame (c.configuredBy h)

theorem decidedBy_keyLookupEffect (c : State) (key : Byte) : DecidedBy c (keyLookupEffect key) := by
  simp only [DecidedBy, keyLookupEffect, configuredBy_keyRom]
  by_cases hvalid : (romRead c.keyRom key).valid = false
  · simp only [hvalid, ↓reduceIte]
    exact .inl ⟨_, fun _ => rfl⟩
  · simp only [hvalid]
    exact .inl ⟨_, fun _ => rfl⟩

theorem decidedBy_kbPressEffect (c : State) (key : Byte) (mods : BitVec 16) :
    DecidedBy c (kbPressEffect key mods) := by
  simp only [DecidedBy, kbPressEffect, configuredBy_keyRom, configuredBy_modBit]
  by_cases hvalid : (romRead c.keyRom key).valid = false
  · simp only [hvalid, ↓reduceIte]
    exact .inl ⟨_, fun _ => rfl⟩
  · simp only [hvalid]
    cases unknownModifiers mods with
    | true => exact .inl ⟨_, fun _ => rfl⟩
    | false => exact .inr ⟨_, fun _ => rfl⟩

theorem decidedBy_kbTriggerEffect (c : State) (nkeys : BitVec 4) (mods : BitVec 16) (keys : Vector Byte 12) :
    DecidedBy c (kbTriggerEffect nkeys mods keys) := by
  simp only [DecidedBy, kbTriggerEffect, configuredBy_keyRom, triggerReport_configuredBy]
  by_cases hcount : nkeys.toNat > 12
  · simp only [hcount, ↓reduceIte]
    exact .inl ⟨_, fun _ => rfl⟩
  · simp only [hcount, ↓reduceIte]
    by_cases hslots : (dedup (keys.toList.take nkeys.toNat)).length > 6 ∨ popcount mods > 8
    · simp only [hslots, ↓reduceIte]
      exact .inl ⟨_, fun _ => rfl⟩
    · simp only [hslots, ↓reduceIte]
      cases unknownModifiers mods with
      | true => exact .inl ⟨_, fun _ => rfl⟩
      | false =>
        cases lookupAll c.keyRom (dedup (keys.toList.take nkeys.toNat)) with
        | none => exact .inl ⟨_, fun _ => rfl⟩
        | some es => exact .inr ⟨_, fun _ => rfl⟩

theorem decidedBy_msAbsEffect (c : State) (btn : Button) (wheel x y : BitVec 16) :
    DecidedBy c (msAbsEffect btn wheel x y) := by
  simp only [DecidedBy, msAbsEffect, configuredBy_cfgScreenX, configuredBy_cfgScreenY, configuredBy_btnCode]
  cases wheelByte (sext16 wheel) with
  | none => exact .inl ⟨_, fun _ => rfl⟩
  | some wb =>
    by_cases hoff : x.toNat ≥ c.cfgScreenX.toNat ∨ y.toNat ≥ c.cfgScreenY.toNat
    · simp only [hoff, ↓reduceIte]
      exact .inl ⟨_, fun _ => rfl⟩
    · simp only [hoff, ↓reduceIte]
      exact .inr ⟨_, fun _ => rfl⟩

theorem decidedBy_msRelEffect (c : State) (btn : Button) (wheel dx dy : BitVec 16) :
    DecidedBy c (msRelEffect btn wheel dx dy) := by
  simp only [DecidedBy, msRelEffect, configuredBy_btnCode]
  cases deltaByte (sext16 dx) with
  | none => exact .inl ⟨_, fun _ => rfl⟩
  | some xb =>
    cases deltaByte (sext16 dy) with
    | none => exact .inl ⟨_, fun _ => rfl⟩
    | some yb =>
      cases wheelByte (sext16 wheel) with
      | none => exact .inl ⟨_, fun _ => rfl⟩
      | some wb => exact .inr ⟨_, fun _ => rfl⟩

theorem decidedBy_frameEffect (c : State) (addr cmd len : Byte) (payload : Vector Byte 12) :
    DecidedBy c (frameEffect addr cmd len payload) := by
  simp only [DecidedBy, frameEffect]
  cases expectedLen cmd with
  | none => exact .inl ⟨_, fun _ => rfl⟩
  | some n =>
    by_cases hlen : len.toNat = n
    · simp only [hlen, ne_eq, not_true_eq_false, ↓reduceIte]
      exact .inr ⟨_, fun _ => rfl⟩
    · simp only [hlen, ne_eq, not_false_eq_true, ↓reduceIte]
      exact .inl ⟨_, fun _ => rfl⟩

/-- Every operation has an effect that the configuration decides. -/
theorem exec_decidedBy (c : State) (i : Instr) : ∃ f, DecidedBy c f ∧ ∀ s, exec i s = .next (f s) := by
  cases i with
  | kbPress key mods => exact ⟨_, decidedBy_kbPressEffect c key mods, fun _ => rfl⟩
  | kbRelease => exact ⟨_, .inr ⟨_, fun _ => rfl⟩, fun _ => rfl⟩
  | kbTrigger nkeys mods keys => exact ⟨_, decidedBy_kbTriggerEffect c nkeys mods keys, fun _ => rfl⟩
  | msAbs btn wheel x y => exact ⟨_, decidedBy_msAbsEffect c btn wheel x y, fun _ => rfl⟩
  | msRel btn wheel dx dy => exact ⟨_, decidedBy_msRelEffect c btn wheel dx dy, fun _ => rfl⟩
  | frame addr cmd len payload => exact ⟨_, decidedBy_frameEffect c addr cmd len payload, fun _ => rfl⟩
  | keyLookup key => exact ⟨_, decidedBy_keyLookupEffect c key, fun _ => rfl⟩

/-! ### What a request appends and answers -/

@[simp] theorem appendTx_nil (s : State) : appendTx [] s = s := by simp [appendTx]

/-- The transport's answer `r` alone settles which bytes of a frame reach TX and what RESP becomes (rule R46). -/
theorem transmit_outcome (frame : List Byte) (r : WriteResult) :
    ∃ bs v, ∀ s : State, s.reply = r → transmit frame s = respond v (appendTx bs s) := by
  cases r with
  | ok => exact ⟨frame, respOk, fun s hreply => by rw [transmit_ok frame s hreply]; rfl⟩
  | ioError k =>
    exact ⟨frame.take k, respOfError .transport, fun s hreply => by rw [transmit_ioError frame s k hreply]; rfl⟩

/-- An operation appends the same bytes and answers the same RESP on all states of one configuration and one answer of the
transport, and does nothing else (rules R29, R130 and R160). -/
theorem exec_outcome (c : State) (i : Instr) (r : WriteResult) :
    ∃ bs v, ∀ s, SameConfig c s → s.reply = r → exec i s = .next (respond v (appendTx bs s)) := by
  obtain ⟨f, ⟨v, hrespond⟩ | ⟨frame, htransmit⟩, hexec⟩ := exec_decidedBy c i
  · refine ⟨[], v, fun s hconfig _ => ?_⟩
    have hs := hrespond s
    rw [configuredBy_eq_self hconfig] at hs
    rw [hexec, hs, appendTx_nil]
  · obtain ⟨bs, v, hsent⟩ := transmit_outcome frame r
    refine ⟨bs, v, fun s hconfig hreply => ?_⟩
    have hs := htransmit s
    rw [configuredBy_eq_self hconfig] at hs
    rw [hexec, hs, hsent s hreply]

/-- The same for the step that takes a request, one without an operation included. -/
theorem step_request_outcome {c : State} (hscreens : screensOk c.cfgScreenX c.cfgScreenY = true) (w : Request)
    (r : WriteResult) :
    ∃ bs v, ∀ s rest, SameConfig c s → s.arrivals = .request w r :: rest →
      step s = .next (respond v (appendTx bs (accept r rest s))) := by
  have hok {s : State} (hconfig : SameConfig c s) : screensOk s.cfgScreenX s.cfgScreenY = true := by
    obtain ⟨hx, hy, -⟩ := hconfig
    rw [hx, hy, hscreens]
  cases hdecode : decode w with
  | error j =>
    refine ⟨[], respOfError .illegalRequest, fun s rest hconfig harrivals => ?_⟩
    rw [step_illegal (hok hconfig) harrivals hdecode, appendTx_nil]
    rfl
  | ok i =>
    obtain ⟨bs, v, hexec⟩ := exec_outcome c i r
    refine ⟨bs, v, fun s rest hconfig harrivals => ?_⟩
    rw [step_request (hok hconfig) harrivals hdecode]
    exact hexec _ (hconfig.trans (sameConfig_accept s r rest)) rfl

/-- Presenting a request touches no configuration field. -/
theorem sameConfig_presenting (s : State) (w : Request) (r : WriteResult) (rest : List Arrival) :
    SameConfig s (s.presenting w r rest) := sameConfig_withArrivals s _

/-- Any step that takes the request `w` on a core configured as `c` appends what `w` alone appends there, and leaves the
RESP that `w` alone leaves there. -/
theorem step_request_appendedBy {c : State} (hscreens : screensOk c.cfgScreenX c.cfgScreenY = true) (w : Request)
    (r : WriteResult) :
    ∃ u, step (c.presenting w r []) = .next u ∧ ∀ s rest, SameConfig c s → s.arrivals = .request w r :: rest →
      step s = .next (respond u.resp (appendTx (appendedBy c w r) (accept r rest s))) := by
  obtain ⟨bs, v, hstep⟩ := step_request_outcome hscreens w r
  have hbytes : appendedBy c w r = bs := by
    have halone := hstep ({ c with tx := [] }.presenting w r []) [] (sameConfig_presenting c w r []) rfl
    simp only [appendedBy, halone]
    rfl
  refine ⟨_, hstep (c.presenting w r []) [] (sameConfig_presenting c w r []) rfl, ?_⟩
  rw [hbytes]
  exact hstep

/-! ### A run of requests -/

/-- The run over the requests `ws` from any state configured as `c`: by induction on the requests, each step's bytes and RESP
being those of its request alone on `c`. -/
theorem run_requests {c : State} (hscreens : screensOk c.cfgScreenX c.cfgScreenY = true)
    (ws : List (Request × WriteResult)) (s : State) (hconfig : SameConfig c s)
    (harrivals : s.arrivals = ws.map fun p => Arrival.request p.1 p.2) :
    ∃ t : State, Host.Core.run Sys2Proof.core ws.length s = .next t ∧ t.arrivals = [] ∧
      t.stepIndex = s.stepIndex + ws.length ∧ SameConfig c t ∧
      t.tx = s.tx ++ (ws.map fun p => appendedBy c p.1 p.2).flatten ∧
      ∀ p ∈ ws.getLast?, ∃ u, step (c.presenting p.1 p.2 []) = .next u ∧ t.resp = u.resp := by
  induction ws generalizing s with
  | nil => exact ⟨s, run_zero s, harrivals, rfl, hconfig, by simp, by simp⟩
  | cons p ws ih =>
    obtain ⟨u, hu, hstep⟩ := step_request_appendedBy hscreens p.1 p.2
    have hfirst := hstep s _ hconfig harrivals
    obtain ⟨t, hrun, hdone, hindex, hsame, htx, hlast⟩ :=
      ih _ (hconfig.trans (noStepWritesTheConfiguration s _ hfirst)) rfl
    refine ⟨t, (run_succ ws.length hfirst).trans hrun, hdone, ?_, hsame, ?_, ?_⟩
    · rw [hindex, respond_stepIndex, appendTx_stepIndex, accept_stepIndex, List.length_cons]
      omega
    · rw [htx]
      simp
    · cases ws with
      | nil =>
        cases hrun
        simpa using ⟨u, hu, rfl⟩
      | cons q ws => simpa using hlast

/-- Settles O42: `run_requests` on the starting state's own configuration. -/
theorem runConcatenatesRequestsInOrder : Obligations.RunConcatenatesRequestsInOrder := by
  unfold Obligations.RunConcatenatesRequestsInOrder
  intro ws s hscreens harrivals
  exact run_requests hscreens ws s (sameConfig_refl s) harrivals

end Sys2Proof.Machine

/-! Decoding what `encode` writes (rules R61 to R67), so that a step on the word of an instruction runs that instruction. -/

namespace Sys2Proof.Machine

/-- The twelve entries of an encoded request, where its operand bits from REQ[32] on are the packed entries `v`. -/
theorem entriesField_encode (i : Instr) (v : Vector Byte 12)
    (h : ∀ j : Nat, (operandBits i).extractLsb' (28 + 8 * j) 8 = (packEntries v).extractLsb' (8 * j) 8) :
    entriesField (encode i) = v := by
  apply Vector.ext
  intro j hj
  rw [entriesField, Vector.getElem_ofFn, entryField, encode_operands _ _ _ (by omega),
    show 32 + 8 * j - 4 = 28 + 8 * j by omega, h, packEntries_entry v j hj]

theorem entriesField_encode_kbTrigger (nkeys : BitVec 4) (mods : BitVec 16) (keys : Vector Byte 12) :
    entriesField (encode (.kbTrigger nkeys mods keys)) = keys := by
  refine entriesField_encode _ _ fun j => ?_
  rw [operandBits, extractLsb'_append_high _ _ _ _ (by omega), extractLsb'_append_high _ _ _ _ (by omega),
    extractLsb'_append_high _ _ _ _ (by omega)]
  congr 1
  omega

theorem entriesField_encode_frame (addr cmd len : Byte) (payload : Vector Byte 12) :
    entriesField (encode (.frame addr cmd len payload)) = payload := by
  refine entriesField_encode _ _ fun j => ?_
  rw [operandBits, extractLsb'_append_high _ _ _ _ (by omega), extractLsb'_append_high _ _ _ _ (by omega),
    extractLsb'_append_high _ _ _ _ (by omega), extractLsb'_append_high _ _ _ _ (by omega)]
  congr 1
  omega

/-- The decoder reads back every field the encoder writes. -/
theorem decode_encode (i : Instr) : decode (encode i) = .ok i := by
  rw [decode, opField_encode]
  cases i with
  | kbPress key mods =>
    simp (disch := decide) only [opcode, byte1Field, half1Field, encode_operands, operandBits, extractLsb'_append_high,
      extractLsb'_append_low, Nat.reduceSub, BitVec.extractLsb'_eq_self]
    rfl
  | kbRelease => rfl
  | kbTrigger nkeys mods keys =>
    simp (disch := decide) only [opcode, nkeysField, half1Field, entriesField_encode_kbTrigger, encode_operands,
      operandBits, extractLsb'_append_high, extractLsb'_append_low, Nat.reduceSub, BitVec.extractLsb'_eq_self]
    rfl
  | msAbs btn wheel x y =>
    simp (disch := decide) only [opcode, btnField, half1Field, half2Field, half3Field, encode_operands, operandBits,
      extractLsb'_append_high, extractLsb'_append_low, Nat.reduceSub, BitVec.extractLsb'_eq_self, buttonOf_buttonBits]
    rfl
  | msRel btn wheel dx dy =>
    simp (disch := decide) only [opcode, btnField, half1Field, half2Field, half3Field, encode_operands, operandBits,
      extractLsb'_append_high, extractLsb'_append_low, Nat.reduceSub, BitVec.extractLsb'_eq_self, buttonOf_buttonBits]
    rfl
  | frame addr cmd len payload =>
    simp (disch := decide) only [opcode, byte1Field, byte2Field, byte3Field, entriesField_encode_frame,
      encode_operands, operandBits, extractLsb'_append_high, extractLsb'_append_low, Nat.reduceSub,
      BitVec.extractLsb'_eq_self]
    rfl
  | keyLookup key =>
    simp (disch := decide) only [opcode, byte1Field, encode_operands, operandBits, extractLsb'_append_high,
      extractLsb'_append_low, Nat.reduceSub, BitVec.extractLsb'_eq_self]
    rfl

/-- A step that takes the word of an instruction runs the instruction. -/
theorem step_encoded {s : State} {i : Instr} {r : WriteResult} {rest : List Arrival}
    (hscreens : screensOk s.cfgScreenX s.cfgScreenY = true) (harrivals : s.arrivals = .request (encode i) r :: rest) :
    step s = exec i (accept r rest s) :=
  step_request hscreens harrivals (decode_encode i)

end Sys2Proof.Machine

/-! The steps of the mouse pseudo-operations (rule R72), and obligation O56. -/

namespace Sys2Proof.Machine

/-- A wheel of 0 is the byte `0x00` (rule R152). -/
@[simp] theorem wheelByte_zero : wheelByte (sext16 0) = some 0x00 := by decide

/-- Both deltas of an MS_REL have a byte (rule R153, decision D13). -/
abbrev DeltasInRange (dx dy : BitVec 16) : Prop := -127 ≤ dx.toInt ∧ dx.toInt ≤ 127 ∧ -127 ≤ dy.toInt ∧ dy.toInt ≤ 127

theorem deltaByte_sext16 {d : BitVec 16} (h : -127 ≤ d.toInt) (h' : d.toInt ≤ 127) :
    deltaByte (sext16 d) = some (byte8 d.toInt) := by
  obtain ⟨hout, -⟩ | ⟨-, hbyte⟩ := deltaByte_cases d.toInt
  · omega
  · exact hbyte

/-- A frame that is taken ends the request with RESP = 0. -/
theorem transmit_taken {f : List Byte} {s : State} (hreply : s.reply = .ok) :
    transmit f s = respond 0 (appendTx f s) := transmit_ok f s hreply

/-- MS_REL without wheel motion, both deltas in range, its write taken (rule R159). -/
theorem msRelEffect_taken {btn : Button} {dx dy : BitVec 16} {s : State} (hreply : s.reply = .ok)
    (hrange : DeltasInRange dx dy) :
    msRelEffect btn 0 dx dy s = respond 0 (appendTx (buildFrame 0x00 0x05
      [0x01, btnByte s.btnCode btn, BitVec.ofInt 8 dx.toInt, BitVec.ofInt 8 dy.toInt, 0x00]) s) := by
  obtain ⟨hx, hx', hy, hy'⟩ := hrange
  simp only [msRelEffect, deltaByte_sext16 hx hx', deltaByte_sext16 hy hy', wheelByte_zero]
  exact transmit_taken hreply

/-- MS_REL with a delta out of range (rule R159, decision D13). -/
theorem msRelEffect_range {btn : Button} {wheel dx dy : BitVec 16} {s : State}
    (hrange : ¬ DeltasInRange dx dy) :
    msRelEffect btn wheel dx dy s = raiseError .range s := by
  obtain ⟨-, hdx⟩ | ⟨hx, hdx⟩ := deltaByte_cases (sext16 dx)
  · simp only [msRelEffect, hdx]
  · obtain ⟨-, hdy⟩ | ⟨hy, hdy⟩ := deltaByte_cases (sext16 dy)
    · simp only [msRelEffect, hdx, hdy]
    · exact absurd ⟨hx.1, hx.2, hy.1, hy.2⟩ hrange

/-- MS_ABS without wheel motion, on the screen, its write taken (rules R154 and R158). -/
theorem msAbsEffect_taken {btn : Button} {x y : BitVec 16} {s : State} (hreply : s.reply = .ok)
    (hscreen : x.toNat < s.cfgScreenX.toNat ∧ y.toNat < s.cfgScreenY.toNat) :
    msAbsEffect btn 0 x y s = respond 0 (appendTx (buildFrame 0x00 0x04
      (absPayload (btnByte s.btnCode btn) (scale x s.cfgScreenX) (scale y s.cfgScreenY) 0x00)) s) := by
  obtain ⟨hx, hy⟩ := hscreen
  have hon : ¬ (x.toNat ≥ s.cfgScreenX.toNat ∨ y.toNat ≥ s.cfgScreenY.toNat) := by omega
  simp only [msAbsEffect, wheelByte_zero, if_neg hon]
  exact transmit_taken hreply

/-- MS_ABS with a coordinate off the screen (rule R158, decision D14). -/
theorem msAbsEffect_range {btn : Button} {x y : BitVec 16} {s : State}
    (hscreen : ¬ (x.toNat < s.cfgScreenX.toNat ∧ y.toNat < s.cfgScreenY.toNat)) :
    msAbsEffect btn 0 x y s = raiseError .range s := by
  have hoff : x.toNat ≥ s.cfgScreenX.toNat ∨ y.toNat ≥ s.cfgScreenY.toNat := by omega
  simp only [msAbsEffect, wheelByte_zero, if_pos hoff]

/-- The step of a lone `ms.rel DX, DY, B, 0` (rules R72 and R159). -/
theorem step_msRel {s : State} {btn : Button} {dx dy : BitVec 16}
    (hscreens : screensOk s.cfgScreenX s.cfgScreenY = true) (harrivals : s.arrivals = okRequests [.msRel btn 0 dx dy]) :
    ∃ t, step s = .next t ∧ t.arrivals = [] ∧
      (DeltasInRange dx dy → t.resp = 0 ∧
        t.tx = s.tx ++ buildFrame 0x00 0x05
          [0x01, btnByte s.btnCode btn, BitVec.ofInt 8 dx.toInt, BitVec.ofInt 8 dy.toInt, 0x00]) ∧
      (¬ DeltasInRange dx dy → t.resp = 4 ∧ t.tx = s.tx) := by
  refine ⟨msRelEffect btn 0 dx dy (accept .ok [] s), step_encoded hscreens harrivals, ?_⟩
  by_cases hrange : DeltasInRange dx dy
  · rw [msRelEffect_taken (accept_reply ..) hrange]
    exact ⟨rfl, fun _ => ⟨rfl, rfl⟩, fun h => absurd hrange h⟩
  · rw [msRelEffect_range hrange]
    exact ⟨rfl, fun h => absurd h hrange, fun _ => ⟨rfl, rfl⟩⟩

/-- The step of a lone `ms.rel 0, 0, B, 0`, which is always in range. -/
theorem step_pressRequest {s : State} {btn : Button} (hscreens : screensOk s.cfgScreenX s.cfgScreenY = true)
    (harrivals : s.arrivals = okRequests [pressRequest btn]) :
    ∃ t, step s = .next t ∧ t.arrivals = [] ∧ t.resp = 0 ∧
      t.tx = s.tx ++ buildFrame 0x00 0x05 [0x01, btnByte s.btnCode btn, 0x00, 0x00, 0x00] := by
  obtain ⟨t, hstep, hdone, hsent, -⟩ := step_msRel hscreens harrivals
  exact ⟨t, hstep, hdone, hsent (by decide)⟩

/-- Settles O56: `ms.press`, `ms.release` and `ms.move_rel` are one MS_REL step each, `ms.move_abs` one MS_ABS step. -/
theorem mousePseudoOperationsSendOneReport : Obligations.MousePseudoOperationsSendOneReport := by
  unfold Obligations.MousePseudoOperationsSendOneReport
  intro s hscreens
  refine ⟨fun btn => step_pressRequest hscreens, step_pressRequest hscreens, fun dx dy => step_msRel hscreens,
    fun x y harrivals => ⟨msAbsEffect .none 0 x y (accept .ok [] s), step_encoded hscreens harrivals, ?_⟩⟩
  by_cases hscreen : x.toNat < s.cfgScreenX.toNat ∧ y.toNat < s.cfgScreenY.toNat
  · rw [msAbsEffect_taken (accept_reply ..) hscreen]
    refine ⟨rfl, fun _ => ⟨rfl, ?_⟩, fun h => absurd hscreen h⟩
    rintro _ _ rfl rfl
    simp [absPayload, scale, lo8_eq, hi8_eq]
  · rw [msAbsEffect_range (s := accept .ok [] s) hscreen]
    exact ⟨rfl, fun h => absurd h hscreen, fun _ => ⟨rfl, rfl⟩⟩

end Sys2Proof.Machine

/-! The run of `kb.type` (rule R72): a press and an all-up report per character, and obligation O57. -/

namespace Sys2Proof.Machine

/-- A run of `j + k` steps is a run of `k` steps from where `j` steps lead. -/
theorem run_add (M : Host.Core) {j : Nat} (k : Nat) {s t : M.State} (h : M.run j s = .next t) :
    M.run (j + k) s = M.run k t := by
  induction j generalizing s with
  | zero =>
    rw [Host.Core.run] at h
    cases h
    rw [Nat.zero_add]
  | succ j ih =>
    rw [Host.Core.run] at h
    rw [Nat.add_right_comm, Host.Core.run]
    cases hstep : M.step s with
    | next u =>
      rw [hstep] at h
      exact ih h
    | fault r =>
      rw [hstep] at h
      cases h
    | refused r =>
      rw [hstep] at h
      cases h


/-- The bytes that the press of a key without modifiers hands over: the report of the key, or nothing where it is not
valid (rule R126). -/
def pressBytes (s : State) (key : Byte) : List Byte :=
  if (romRead s.keyRom key).valid = true then
    buildFrame 0x00 0x02
      [if (romRead s.keyRom key).shift = true then 1#8 <<< (modBitOf s.modBit .shift).toNat else 0, 0x00,
        (romRead s.keyRom key).scan, 0x00, 0x00, 0x00, 0x00, 0x00]
  else []

/-- RESP after the press of a key whose write is taken: 0, or UnknownKeyError (rule R126). -/
def pressResp (s : State) (key : Byte) : BitVec 32 := if (romRead s.keyRom key).valid = true then 0 else 1

/-- The frame of the all-up report (rule R127). -/
def releaseBytes : List Byte := buildFrame 0x00 0x02 [0x00, 0x00, 0x00, 0x00, 0x00, 0x00, 0x00, 0x00]

/-- The bytes of a press depend on the configuration alone. -/
theorem pressBytes_of_sameConfig {s t : State} (hconfig : SameConfig s t) : pressBytes t = pressBytes s := by
  obtain ⟨-, -, hrom, hmod, -, -⟩ := hconfig
  funext key
  rw [pressBytes, pressBytes, hrom, hmod]

/-- With no modifier named, the modifier byte is the implicit shift alone (rule R125). -/
theorem modByteWith_zero (t : Vector (BitVec 3) 12) (implied : Bool) :
    modByteWith t (nameSet 0) implied = if implied = true then 1#8 <<< (modBitOf t .shift).toNat else 0 := by
  have hnone : modByte t (nameSet 0) = 0#8 := by simp [modByte, nameSet]
  rw [modByteWith, hnone, BitVec.zero_or]
  rfl

/-- The step of a press without modifiers whose write is taken (rule R126). -/
theorem step_press {s : State} {key : Byte} {rest : List Arrival}
    (hscreens : screensOk s.cfgScreenX s.cfgScreenY = true)
    (harrivals : s.arrivals = .request (encode (.kbPress key 0)) .ok :: rest) :
    step s = .next (respond (pressResp s key) (appendTx (pressBytes s key) (accept .ok rest s))) := by
  have hmods : unknownModifiers 0 = false := by decide
  rw [step_encoded hscreens harrivals]
  show Host.Outcome.next (kbPressEffect key 0 (accept .ok rest s)) = _
  rw [kbPressEffect, accept_keyRom, accept_modBit, pressResp, pressBytes]
  cases hvalid : (romRead s.keyRom key).valid with
  | false =>
    simp only [↓reduceIte, Bool.false_eq_true, appendTx_nil]
    rfl
  | true =>
    simp only [↓reduceIte, Bool.true_eq_false, hmods, Bool.false_eq_true, modByteWith_zero]
    exact congrArg Host.Outcome.next (transmit_taken (accept_reply ..))

/-- The step of a release whose write is taken (rule R127). -/
theorem step_release {s : State} {rest : List Arrival} (hscreens : screensOk s.cfgScreenX s.cfgScreenY = true)
    (harrivals : s.arrivals = .request (encode .kbRelease) .ok :: rest) :
    step s = .next (respond 0 (appendTx releaseBytes (accept .ok rest s))) := by
  rw [step_encoded hscreens harrivals]
  exact congrArg Host.Outcome.next (transmit_taken (accept_reply ..))

/-- One character: its press and the all-up report, in two steps. -/
theorem run_tap {s : State} {key : Byte} {rest : List Arrival}
    (hscreens : screensOk s.cfgScreenX s.cfgScreenY = true)
    (harrivals : s.arrivals = okRequests (tapRequests key 0) ++ rest) :
    ∃ t : State, Host.Core.run Sys2Proof.core 2 s = .next t ∧ t.arrivals = rest ∧ SameConfig s t ∧ t.resp = 0 ∧
      t.tx = s.tx ++ (pressBytes s key ++ releaseBytes) := by
  have hpress := step_press hscreens harrivals
  have hrelease := step_release (rest := rest) (s := respond (pressResp s key) (appendTx (pressBytes s key)
    (accept .ok (okRequests [.kbRelease] ++ rest) s))) hscreens rfl
  refine ⟨_, (run_succ 1 hpress).trans (run_succ 0 hrelease), rfl, ?_, rfl, ?_⟩
  · exact (noStepWritesTheConfiguration _ _ hpress).trans (noStepWritesTheConfiguration _ _ hrelease)
  · simp

/-- The requests of a text are those of its parts, in order (rule R72). -/
theorem okRequests_kbType_append (before after : List Byte) :
    okRequests (expandPseudo (.kbType (before ++ after))) =
      okRequests (expandPseudo (.kbType before)) ++ okRequests (expandPseudo (.kbType after)) := by
  simp [okRequests, expandPseudo]

theorem okRequests_kbType_cons (key : Byte) (after : List Byte) :
    okRequests (expandPseudo (.kbType (key :: after))) =
      okRequests (tapRequests key 0) ++ okRequests (expandPseudo (.kbType after)) := by
  simp [okRequests, expandPseudo]

/-- The run over a text's requests, before whatever else is presented: by induction on the text, its last character
last. -/
theorem run_type {s : State} (hscreens : screensOk s.cfgScreenX s.cfgScreenY = true) (text : List Byte)
    (rest : List Arrival) (harrivals : s.arrivals = okRequests (expandPseudo (.kbType text)) ++ rest) :
    ∃ t : State, Host.Core.run Sys2Proof.core (2 * text.length) s = .next t ∧ t.arrivals = rest ∧ SameConfig s t ∧
      (text ≠ [] → t.resp = 0) ∧ t.tx = s.tx ++ text.flatMap fun key => pressBytes s key ++ releaseBytes := by
  induction text using List.reverseRecOn generalizing rest with
  | nil => exact ⟨s, run_zero s, harrivals, sameConfig_refl s, by simp, by simp⟩
  | append_singleton text key ih =>
    rw [okRequests_kbType_append, List.append_assoc] at harrivals
    obtain ⟨t, hrun, hleft, hconfig, -, htx⟩ := ih _ harrivals
    have hscreens' : screensOk t.cfgScreenX t.cfgScreenY = true := by
      obtain ⟨hx, hy, -⟩ := hconfig
      rw [hx, hy, hscreens]
    obtain ⟨u, hrun', hleft', hconfig', hresp, htx'⟩ := run_tap (rest := rest) hscreens' hleft
    refine ⟨u, ?_, hleft', hconfig.trans hconfig', fun _ => hresp, ?_⟩
    · rw [List.length_append, Nat.mul_add]
      exact (run_add _ _ hrun).trans hrun'
    · simp [htx', htx, pressBytes_of_sameConfig hconfig]

/-- Settles O57: `run_type` on the whole text, and on the characters before a press with one step more. -/
theorem typeSendsAPressAndAReleasePerCharacter : Obligations.TypeSendsAPressAndAReleasePerCharacter := by
  unfold Obligations.TypeSendsAPressAndAReleasePerCharacter
  intro text s hscreens harrivals
  constructor
  · obtain ⟨t, hrun, hleft, -, hresp, htx⟩ := run_type hscreens text [] (by rw [harrivals, List.append_nil])
    exact ⟨t, hrun, hleft, hresp, htx⟩
  · rintro before after key rfl
    rw [okRequests_kbType_append] at harrivals
    obtain ⟨t, hrun, hleft, hconfig, -, -⟩ := run_type hscreens before _ harrivals
    obtain ⟨hx, hy, hrom, -⟩ := hconfig
    rw [okRequests_kbType_cons] at hleft
    have hpress := step_press (by rw [hx, hy, hscreens]) hleft
    refine ⟨_, (run_add _ 1 hrun).trans (run_succ 0 hpress), ?_⟩
    rw [respond_resp, pressResp, hrom]

end Sys2Proof.Machine

/-! The assembler on the line of a request (rule R71, decision D26, log 13), and obligation O59. -/

namespace Sys2Proof.Machine

/-- The bracketed list of a line ends at its closing mark, not before: no item of it is a mark. -/
theorem upTo_separated (close : Tok) (ts rest : List Tok) (hcomma : close ≠ .comma) (hitems : close ∉ ts) :
    upTo close (separated ts ++ close :: rest) = some (separated ts, rest) :=
  upTo_append close _ rest fun hmem => (mem_separated hmem).elim hcomma hitems

/-- Items written as words hold no closing mark. -/
theorem closeList_notMem_map {β : Type} (item : β → Tok) (l : List β) (hword : ∀ b, (item b).isWord = true) :
    Tok.closeList ∉ l.map item := by
  rw [List.mem_map]
  rintro ⟨b, -, hb⟩
  exact absurd (hb ▸ hword b) (by decide)

/-- Tokens whose operand is the value they were written from are read back as the values. -/
theorem operands_map_self {α : Type} (f : Tok → Option α) (g : α → Tok) (l : List α)
    (h : ∀ a, f (g a) = some a) : operands f (l.map g) = some l := by
  simpa using operands_map f g id l fun a _ => h a

/-- The line's key list and set are read back as the keys, their count and the mask. -/
theorem assembleTrigger_tokens (ks : List Byte) (v : Vector Byte 12) (mods : BitVec 16) (hentries : entries ks = some v) :
    assembleTrigger (.openList :: separated (ks.map keyToken) ++ .closeList :: modifierSetTokens mods) =
      some (.kbTrigger (BitVec.ofNat 4 ks.length) mods v) := by
  rw [List.cons_append, assembleTrigger,
    upTo_separated _ _ _ (by decide) (closeList_notMem_map keyToken ks fun _ => rfl)]
  simp only [Option.bind_some, items_separated, operands_map_self _ _ ks keyOperand_keyToken, hentries,
    modifierSuffix_tokens, Option.map_some]

/-- The line's address, command and byte list are read back as the fields of a FRAME. -/
theorem assembleFrame_tokens (addr cmd : Byte) (bs : List Byte) (v : Vector Byte 12) (hentries : entries bs = some v) :
    assembleFrame (wordOf (hexText 2 addr.toNat) :: .comma :: wordOf (hexText 2 cmd.toNat) :: .comma :: .openList ::
        separated (bs.map fun b => wordOf (hexText 2 b.toNat)) ++ [.closeList]) =
      some (.frame addr cmd (BitVec.ofNat 8 bs.length) v) := by
  simp only [List.cons_append, assembleFrame,
    upTo_separated _ _ [] (by decide) (closeList_notMem_map (fun b : Byte => wordOf (hexText 2 b.toNat)) bs fun _ => rfl),
    Option.bind_some, if_true, items_separated, operands_map_self _ _ bs byteOperand_hexText, hentries, byteOperand_hexText,
    Option.map_some]

/-- As many entries as the count says are written, and counted again when read. -/
theorem ofNat_length_take {n : Nat} (count : BitVec n) (v : Vector Byte 12) (h : count.toNat ≤ 12) :
    BitVec.ofNat n (v.toList.take count.toNat).length = count := by
  simp [h]

/-- The operands of a well-formed request, under its mnemonic, are read back as the request. -/
theorem assembleStatement_operandTokens (i : Instr) (hwf : i.wellFormed = true) :
    assembleStatement (mnemonicOf i) (operandTokens i) = some [i] := by
  cases i with
  | kbPress key mods =>
    simp [mnemonicOf, operandTokens, assembleStatement, keyAndModifiers, keyOperand_keyToken, modifierSuffix_tokens]
  | kbRelease => rfl
  | kbTrigger nkeys mods keys =>
    simp only [Instr.wellFormed, Bool.and_eq_true, decide_eq_true_eq] at hwf
    obtain ⟨hcount, hunread⟩ := hwf
    rw [mnemonicOf, operandTokens, assembleStatement,
      assembleTrigger_tokens _ _ _ (entries_take keys nkeys.toNat hcount hunread), ofNat_length_take _ _ hcount,
      Option.map_some]
  | msAbs btn wheel x y =>
    simp [mnemonicOf, operandTokens, assembleStatement, separated, assembleAbs, pixelOperand_hexText,
      buttonOperand_buttonToken, signedOperand_signedText]
  | msRel btn wheel dx dy =>
    simp [mnemonicOf, operandTokens, assembleStatement, separated, assembleRel, buttonOperand_buttonToken,
      signedOperand_signedText]
  | frame addr cmd len payload =>
    simp only [Instr.wellFormed, Bool.and_eq_true, decide_eq_true_eq] at hwf
    obtain ⟨hcount, hunread⟩ := hwf
    rw [mnemonicOf, operandTokens, assembleStatement,
      assembleFrame_tokens _ _ _ _ (entries_take payload len.toNat hcount hunread), ofNat_length_take _ _ hcount,
      Option.map_some]
  | keyLookup key => simp [mnemonicOf, operandTokens, assembleStatement, keyOperand_keyToken]

/-- Settles O59: the line is read as the mnemonic and the operands, and these as the request. -/
theorem assemblerReadsEveryRequest : Obligations.AssemblerReadsEveryRequest := by
  unfold Obligations.AssemblerReadsEveryRequest
  intro i hwf
  rw [assembleLine, lexLine_requestLine]
  exact assembleStatement_operandTokens i hwf

end Sys2Proof.Machine

/-! The spec's own lines through the assembler (rules R71 to R73, with rules R68 and R104 for the names), and obligation O58. -/

namespace Sys2Proof.Machine

/-- Settles O58: every line is a closed text, which the assembler evaluates. -/
theorem assemblerReadsTheSpecsLines : Obligations.AssemblerReadsTheSpecsLines := by
  unfold Obligations.AssemblerReadsTheSpecsLines
  refine ⟨?words, ?set, ?triggerSet, ?keyNames, ?modifierNames, ?buttonNames, ?release, ?moveRel, ?moveAbs, ?click, ?tap,
    ?type, ?wideDelta, ?rejected⟩
  all_goals decide +kernel

end Sys2Proof.Machine

/-! Frames field by field: the LEN byte, the payload bytes and the checksum of a built frame (rules R80 to R85), and obligations
O1, O2, O3 and O7. -/

namespace Sys2Proof.Machine

/-! ### The fields of a frame -/

/-- The LEN byte of a payload of at most 255 bytes counts it (rule R83). -/
theorem toNat_lenByte {payload : List Byte} (h : payload.length ≤ 255) :
    (BitVec.ofNat 8 payload.length).toNat = payload.length := by
  rw [BitVec.toNat_ofNat]
  omega

section BuildFrame

variable (addr cmd : Byte) (payload : List Byte)

theorem buildFrame_getElem?_len : (buildFrame addr cmd payload)[4]? = some (BitVec.ofNat 8 payload.length) := rfl

theorem buildFrame_getElem?_payload {j : Nat} (h : j < payload.length) :
    (buildFrame addr cmd payload)[5 + j]? = payload[j]? := by
  rw [buildFrame, List.getElem?_append_left (by rw [frameBody_length]; omega), frameBody,
    List.getElem?_append_right (Nat.le_add_right 5 j)]
  exact congrArg (payload[·]?) (Nat.add_sub_cancel_left 5 j)

theorem buildFrame_getElem?_sum :
    (buildFrame addr cmd payload)[5 + payload.length]? = some (sum8 (frameBody addr cmd payload)) := by
  rw [← frameBody_length addr cmd, buildFrame, List.getElem?_concat_length]

theorem buildFrame_getLast? :
    (buildFrame addr cmd payload).getLast? = some (sum8 (frameBody addr cmd payload)) := by
  rw [buildFrame, List.getLast?_concat]

/-- A frame is its first five bytes, its payload and its checksum (rule R80). -/
theorem buildFrame_eq_take_append :
    buildFrame addr cmd payload =
      (buildFrame addr cmd payload).take 5 ++ payload ++ [sum8 (frameBody addr cmd payload)] := rfl

end BuildFrame

/-! ### The checksum -/

theorem toNat_sum8 (s : List Byte) : (sum8 s).toNat = (s.map BitVec.toNat).sum % 256 := by
  rw [sum8, BitVec.toNat_ofNat, Nat.mod_mod]

/-- The checksum does not depend on the order of the payload bytes (rule R82). -/
theorem sum8_frameBody_perm (addr cmd : Byte) {p q : List Byte} (h : p.Perm q) :
    sum8 (frameBody addr cmd p) = sum8 (frameBody addr cmd q) := by
  rw [sum8_frameBody, sum8_frameBody, h.length_eq, h.foldl_eq 0]

/-- The checksum of an all-zero keyboard report is its address and a constant, so that every value occurs. -/
theorem sum8_frameBody_zeros (addr : Byte) :
    sum8 (frameBody addr 0x02 (List.replicate 8 0)) = addr + 0x0C := by
  rw [sum8_frameBody, List.length_replicate, BitVec.add_comm 0x02 addr]
  simp [List.replicate, BitVec.add_assoc]

/-! ### Obligations -/

/-- Settles O1: the first five bytes are literal, the payload and the checksum are at their offsets. -/
theorem frameLayout : Obligations.FrameLayout := by
  unfold Obligations.FrameLayout
  intro addr cmd payload hlength
  refine ⟨buildFrame_length .., rfl, rfl, rfl, rfl, ⟨_, buildFrame_getElem?_len .., toNat_lenByte hlength⟩,
    fun j => buildFrame_getElem?_payload addr cmd payload, ?_⟩
  rw [buildFrame_take, buildFrame_getElem?_sum]

/-- Settles O2: the checksum is `sum8` of the bytes before it, in numbers and in bytes, and the address of an all-zero
keyboard report brings it to any value. -/
theorem checksumIsSumOfAllPriorBytes : Obligations.ChecksumIsSumOfAllPriorBytes := by
  unfold Obligations.ChecksumIsSumOfAllPriorBytes
  constructor
  · intro addr cmd payload _
    refine ⟨_, buildFrame_getElem?_sum .., ?_, sum8_frameBody ..⟩
    rw [buildFrame_take, toNat_sum8]
  · intro v
    refine ⟨v - 0x0C, ?_⟩
    rw [buildFrame_getLast?, sum8_frameBody_zeros, BitVec.sub_add_cancel]

/-- Settles O3: the last byte is the checksum, whose short form adds up the payload in any order. -/
theorem checksumShortForm : Obligations.ChecksumShortForm := by
  unfold Obligations.ChecksumShortForm
  constructor
  · intro addr cmd payload
    rw [buildFrame_getLast?, sum8_frameBody]
  · intro addr cmd p q hperm
    rw [buildFrame_getLast?, buildFrame_getLast?, sum8_frameBody_perm addr cmd hperm]

/-- Settles O7: an error and a lookup append nothing, and a frame that is handed over has a known command's payload, of at most
8 bytes, which LEN can count. -/
theorem emittedFrameLengthMatchesLenByte : Obligations.EmittedFrameLengthMatchesLenByte := by
  unfold Obligations.EmittedFrameLengthMatchesLenByte
  intro i s t h hreply
  obtain ⟨e, -, -, hexec⟩ | ⟨-, addr, cmd, payload, hknown, -, hexec⟩ | ⟨k, -, hexec⟩ := exec_cases i s
  · cases hexec.symm.trans h
    exact .inl rfl
  · rw [transmit_taken hreply] at hexec
    cases hexec.symm.trans h
    have hlen : (BitVec.ofNat 8 payload.length).toNat = payload.length :=
      toNat_lenByte ((expectedLen_le cmd _ hknown).trans (by decide))
    refine .inr ⟨_, _, _, payload, rfl, buildFrame_getElem?_len .., ?_, hlen.symm, buildFrame_eq_take_append .., ?_⟩
    · rw [hlen, buildFrame_length]
    · rw [hlen, buildFrame_take, toNat_sum8]
  · cases hexec.symm.trans h
    exact .inl rfl

end Sys2Proof.Machine

/-! The default KEY_ROM against the spec's tables of characters and named keys (rules R103 and R104), and obligation O54. -/

namespace Sys2Proof.Machine

/-- Settles O54: each table of punctuation is compared as one list, the entries read at its key ids against the entries it
prints (`List.map_inj_left`); the two runs of named keys are read id by id. -/
theorem punctuationAndNamedKeyScanCodes : Obligations.PunctuationAndNamedKeyScanCodes := by
  unfold Obligations.PunctuationAndNamedKeyScanCodes
  refine ⟨?space, ?unshifted, ?shifted, ?enterToTab, ?capslockToUp⟩
  case space => rfl
  case unshifted => exact List.map_inj_left.mp rfl
  case shifted => exact List.map_inj_left.mp rfl
  case enterToTab => decide
  case capslockToUp => decide

end Sys2Proof.Machine

/-! The modifier byte bit by bit (rules R121 and R122), and obligations O13 and O53. -/

namespace Sys2Proof.Machine

/-- A bit of the modifier byte is set exactly when a name of the set is mapped to it (rule R122). -/
theorem modByte_bit (t : Vector (BitVec 3) 12) (m : BitVec 12) (b : Nat) :
    (modByte t m).getLsbD b = true ↔ ∃ n : ModName, m.getLsbD (modPos n).val = true ∧ (modBitOf t n).toNat = b := by
  rw [modByte, foldl_or_bit]
  simp [List.mem_filter, modNames_complete]

@[simp] theorem modByte_zero (t : Vector (BitVec 3) 12) : modByte t 0 = 0 := by simp [modByte]

/-- `modNames` lists each name at its own MODS position, so no two names share one. -/
theorem modNames_getElem?_modPos (n : ModName) : modNames[(modPos n).val]? = some n := by cases n <;> rfl

theorem modPos_injective {a b : ModName} (h : (modPos a).val = (modPos b).val) : a = b := by
  have hb := modNames_getElem?_modPos b
  rw [← h, modNames_getElem?_modPos a] at hb
  exact Option.some.inj hb

/-- The set with the one bit of `n` names `n` and no other modifier. -/
theorem singleName_bit (n a : ModName) : (1#12 <<< (modPos n).val).getLsbD (modPos a).val = true ↔ a = n := by
  have hbit : (1#12 <<< (modPos n).val).getLsbD (modPos a).val = true ↔ (modPos a).val = (modPos n).val := by
    have ha := (modPos a).isLt
    simp only [BitVec.getLsbD_shiftLeft, BitVec.getLsbD_one]
    simp
    omega
  rw [hbit]
  exact ⟨modPos_injective, fun h => h ▸ rfl⟩

/-- The modifier byte of a single name is that name's mask. -/
theorem modByte_singleName (t : Vector (BitVec 3) 12) (n : ModName) :
    modByte t (1#12 <<< (modPos n).val) = modMask t n := by
  refine BitVec.eq_of_getLsbD_eq fun b _ => Bool.eq_iff_iff.mpr ?_
  rw [modByte_bit, modMask_bit, eq_comm (a := b)]
  simp only [singleName_bit, exists_eq_left]

/-- Settles O13: `modByte_bit`, and the empty set names nothing. -/
theorem modifierByteIsOrOfNamedBits : Obligations.ModifierByteIsOrOfNamedBits := by
  unfold Obligations.ModifierByteIsOrOfNamedBits
  exact ⟨modByte_bit, modByte_zero⟩

/-- Settles O53: positions and masks are read off the two tables row by row, and the byte of the name alone is its mask. -/
theorem defaultModifierBits : Obligations.DefaultModifierBits := by
  unfold Obligations.DefaultModifierBits
  intro row hrow
  have htables : (modPos row.1).val = row.2.1 ∧ modMask defaultModBit row.1 = row.2.2 := by
    revert row
    decide
  obtain ⟨hpos, hmask⟩ := htables
  refine ⟨hpos, hmask, ?_⟩
  rw [← hpos, modByte_singleName, hmask]

end Sys2Proof.Machine

/-! What an operation does does not depend on what came before (rules R29, R130 and R160), and obligation O35. -/

namespace Sys2Proof.Machine

/-- Settles O35: `exec_outcome` on the configuration and the answer of the transport that the two states share. -/
theorem outcomeIndependentOfHistory : Obligations.OutcomeIndependentOfHistory := by
  unfold Obligations.OutcomeIndependentOfHistory
  intro i s s' hconfig hreply
  obtain ⟨bs, v, hexec⟩ := exec_outcome s i s.reply
  exact ⟨_, _, bs, hexec s (sameConfig_refl s) rfl, hexec s' hconfig hreply, rfl, rfl, rfl⟩

end Sys2Proof.Machine

/-! The wheel byte of every integer and the scaling of a coordinate (rules R152 and R154), and obligations O21 and O23. -/

namespace Sys2Proof.Machine

/-- `byte8` as a number (rule R12). -/
theorem byte8_toNat (v : Int) : ((byte8 v).toNat : Int) = v % 256 := by
  rw [byte8, BitVec.toNat_ofInt]
  exact Int.toNat_of_nonneg (Int.emod_nonneg v (by decide))

/-- Settles O21: out of range there is no byte; in range it is `byte8`, which as a number is `w` modulo 256. -/
theorem wheelByteEncoding : Obligations.WheelByteEncoding := by
  unfold Obligations.WheelByteEncoding
  intro w
  obtain ⟨hout, hw⟩ | ⟨⟨hlo, hhi⟩, hw⟩ := wheelByte_cases w
  · exact ⟨fun _ => hw, fun _ _ => by omega, fun _ _ => by omega, by simp [hw], fun _ _ => by omega⟩
  · have hbyte := byte8_toNat w
    refine ⟨fun _ => by omega, fun _ _ => ⟨_, hw, by omega⟩, fun _ _ => ⟨_, hw, by omega⟩, ?_, fun _ _ => hw⟩
    rw [hw, ne_eq, Option.some_inj]
    exact byte8_ne_0x80 w hlo hhi

/-- Settles O23: the two bounds of the floor division, and a coordinate has 16 bits. -/
theorem scaleRoundsDown : Obligations.ScaleRoundsDown := by
  unfold Obligations.ScaleRoundsDown
  intro p s hs
  have hp : p.toNat < 2 ^ 16 := p.isLt
  refine ⟨Nat.div_mul_le_self _ _, ?_, by omega⟩
  rw [Nat.add_one_mul (scale p s)]
  exact Nat.lt_div_mul_add hs

end Sys2Proof.Machine

/-! What a raised error leaves of the state (rules R189 and R21, logs 1, 2 and 6), and obligation O30. -/

namespace Sys2Proof.Machine

/-- Raising an error writes RESP alone, with the code that STATUS then reads, zero-extended (rules R23 and R189). -/
theorem raiseError_eq_zeroExtend_status (e : Err) (s : State) :
    raiseError e s = { s with resp := (statusOf (raiseError e s).resp).zeroExtend 32 } := by
  rw [raiseError_resp, ← respOfError_eq]
  rfl

/-- A frame that is handed over leaves the status OK or that of TransportError, and no other (rule R46). -/
theorem statusOf_transmit (f : List Byte) (s : State) :
    statusOf (transmit f s).resp = 0 ∨ statusOf (transmit f s).resp = 8 := by
  obtain ⟨-, htransmit⟩ | ⟨k, -, htransmit⟩ := transmit_cases f s
  · rw [htransmit, respond_resp]
    exact .inl statusOf_respOk
  · rw [htransmit, raiseError_resp]
    exact .inr (statusOf_respOfError .transport)

/-- An operation with any other status has raised an error and done nothing else: a hand-over ends with OK or
TransportError, an answered lookup with OK. -/
theorem exec_raised {i : Instr} {s t : State} (h : exec i s = .next t) (hok : statusOf t.resp ≠ 0)
    (htransport : statusOf t.resp ≠ 8) : ∃ e, t = raiseError e s := by
  obtain ⟨e, -, -, hexec⟩ | ⟨-, addr, cmd, payload, -, -, hexec⟩ | ⟨k, -, hexec⟩ := exec_cases i s
  · cases hexec.symm.trans h
    exact ⟨e, rfl⟩
  · cases hexec.symm.trans h
    exact ((statusOf_transmit _ s).elim hok htransport).elim
  · cases hexec.symm.trans h
    exact absurd (statusOf_respOfLookup _ _) hok

/-- A step that takes a request and ends with such a status has accepted the request and raised an error, whether or not
its word is that of an operation. -/
theorem step_raised {s t : State} {w : Request} {r : WriteResult} {rest : List Arrival}
    (harrivals : s.arrivals = .request w r :: rest) (h : step s = .next t) (hok : statusOf t.resp ≠ 0)
    (htransport : statusOf t.resp ≠ 8) : ∃ e, t = raiseError e (accept r rest s) := by
  obtain ⟨-, ⟨hidle, -⟩ | ⟨rest', hreset, -⟩ | ⟨w', r', rest', hrequest, hdone⟩⟩ := step_cases h
  · cases harrivals.symm.trans hidle
  · cases harrivals.symm.trans hreset
  · cases harrivals.symm.trans hrequest
    obtain ⟨i, -, hexec⟩ | ⟨-, hillegal⟩ := hdone
    · exact exec_raised hexec hok htransport
    · exact ⟨.illegalRequest, hillegal⟩

/-- Settles O30: the operation raised an error on its state, the step on the state that has accepted the request, and
raising it writes RESP alone. -/
theorem errorsChangeOnlyResp : Obligations.ErrorsChangeOnlyResp := by
  unfold Obligations.ErrorsChangeOnlyResp
  constructor
  · intro i s t h hok htransport
    obtain ⟨e, rfl⟩ := exec_raised h hok htransport
    exact raiseError_eq_zeroExtend_status e s
  · intro s t w r rest harrivals h hok htransport
    obtain ⟨e, rfl⟩ := step_raised harrivals h hok htransport
    exact raiseError_eq_zeroExtend_status e (accept r rest s)

end Sys2Proof.Machine

/-! Which instances `powerOn` refuses, and with which reason (rules R26, R101, R106, R121, R124 and R221, log 11), and
obligation O55. -/

namespace Sys2Proof.Machine

/-- Two nonzero screen sizes pass the check of rule R26. -/
theorem screensOk_of_ne_zero {x y : BitVec 16} (hx : x ≠ 0) (hy : y ≠ 0) : screensOk x y = true := by
  simp only [screensOk, Bool.and_eq_true, bne_iff_ne]
  exact ⟨hx, hy⟩

/-- The left-side forms, by which `modBitOk` compares names, and the pairs of rule R124 say the same. -/
theorem leftForm_eq_iff_aliased (a b : ModName) : leftForm a = leftForm b ↔ aliased a b := by
  have hnames : ∀ p ∈ modNames, ∀ q ∈ modNames, leftForm p = leftForm q ↔ aliased p q := by decide
  exact hnames a (modNames_complete a) b (modNames_complete b)

/-- What the check of MOD_BIT accepts (rules R121 and R124). -/
theorem modBitOk_iff (t : Vector (BitVec 3) 12) :
    modBitOk t = true ↔ ∀ a b : ModName, modBitOf t a = modBitOf t b ↔ aliased a b := by
  simp only [modBitOk, List.all_eq_true, modNames_complete, true_imp_iff, Bool.beq_eq_decide_eq, decide_eq_decide,
    decide_eq_true_eq, leftForm_eq_iff_aliased, modBitOf]

/-- An entry passes when an invalid one holds scan 0 and shift 0 (rule R101). -/
theorem romEntryOk_iff (e : RomEntry) :
    romEntryOk e = true ↔ (e.valid = false → e.scan = 0 ∧ e.shift = false) := by
  obtain ⟨valid, scan, shift⟩ := e
  cases valid <;> simp [romEntryOk, romInvalid]

/-- A property of every entry of KEY_ROM is one of the entry of every key id (rule R27). -/
theorem all_keyRom_iff (rom : Vector RomEntry 256) (f : RomEntry → Bool) :
    rom.toList.all f = true ↔ ∀ k : Byte, f (romRead rom k) = true := by
  rw [Vector.all_toList, Vector.all_eq_true]
  constructor
  · intro hall k
    exact hall k.toNat k.isLt
  · intro hread j hj
    simpa [romRead, Nat.mod_eq_of_lt hj] using hread (BitVec.ofNat 8 j)

/-- What the check of KEY_ROM accepts (rules R101 and R106). -/
theorem keyRomOk_iff (rom : Vector RomEntry 256) :
    keyRomOk rom = true ↔
      (∀ k : Byte, (romRead rom k).valid = false → (romRead rom k).scan = 0 ∧ (romRead rom k).shift = false) ∧
        romRead rom 0x61 = romPlain 0x04 ∧ romRead rom 0x41 = romShifted 0x04 := by
  simp only [keyRomOk, Bool.and_eq_true, all_keyRom_iff, romEntryOk_iff, beq_iff_eq, and_assoc]
  rfl

/-- Several requesters without an arbiter are the one value that is refused (rule R221). -/
theorem requestersOk_eq_false_iff (r : Requesters) : requestersOk r = false ↔ r = .unarbitrated := by
  cases r <;> decide

section Refusals

variable {p : Instance} (hscreens : screensOk p.screenX p.screenY = true)

include hscreens

theorem powerOn_badModBit (hmodBit : modBitOk p.modBit = false) : powerOn p = .refused .badModBit := by
  simp [powerOn, instanceRefusal, hscreens, hmodBit]

theorem powerOn_badKeyRom (hmodBit : modBitOk p.modBit = true) (hkeyRom : keyRomOk p.keyRom = false) :
    powerOn p = .refused .badKeyRom := by
  simp [powerOn, instanceRefusal, hscreens, hmodBit, hkeyRom]

theorem powerOn_unarbitratedRequesters (hmodBit : modBitOk p.modBit = true) (hkeyRom : keyRomOk p.keyRom = true)
    (hrequesters : requestersOk p.requesters = false) : powerOn p = .refused .unarbitratedRequesters := by
  simp [powerOn, instanceRefusal, hscreens, hmodBit, hkeyRom, hrequesters]

end Refusals

/-- Settles O55: what each clause finds wrong fails the table's check, and `powerOn` makes the checks in the order of
the clauses. -/
theorem instancesOutsideTheRulesAreRefused : Obligations.InstancesOutsideTheRulesAreRefused := by
  unfold Obligations.InstancesOutsideTheRulesAreRefused
  intro p hx hy
  have hscreens := screensOk_of_ne_zero hx hy
  refine ⟨?modBit, ?keyRom, ?requesters⟩
  case modBit =>
    rintro ⟨a, b, hshared⟩
    refine powerOn_badModBit hscreens (Bool.eq_false_iff.mpr fun hok => ?_)
    exact hshared ((modBitOk_iff _).mp hok a b)
  case keyRom =>
    intro hmodBit hbad
    refine powerOn_badKeyRom hscreens hmodBit (Bool.eq_false_iff.mpr fun hok => ?_)
    obtain ⟨hinvalid, ha, hA⟩ := (keyRomOk_iff _).mp hok
    obtain ⟨k, hvalid, hentry⟩ | hne | hne := hbad
    · obtain ⟨hscan, hshift⟩ := hinvalid k hvalid
      simp [hscan, hshift] at hentry
    · exact hne ha
    · exact hne hA
  case requesters =>
    intro hmodBit hkeyRom hrequesters
    exact powerOn_unarbitratedRequesters hscreens hmodBit hkeyRom ((requestersOk_eq_false_iff _).mpr hrequesters)

end Sys2Proof.Machine

/-! RESP through an operation and through a step, and that every operation completes (rules R22, R23, R189 and R190, decision
D5), and obligations O33 and O46. -/

namespace Sys2Proof.Machine

/-- The core's answer to a write is a legal RESP, whether the write is taken or not. -/
theorem respLegal_transmit (f : List Byte) (s : State) : RespLegal (transmit f s).resp := by
  obtain ⟨-, htransmit⟩ | ⟨k, -, htransmit⟩ := transmit_cases f s
  · rw [htransmit]
    exact respLegal_respOk
  · rw [htransmit]
    exact respLegal_respOfError .transport

/-- Every operation answers a next state, whose RESP is legal: it raises an error, hands over a frame or answers a lookup. -/
theorem exec_completes (i : Instr) (s : State) : ∃ t, exec i s = .next t ∧ RespLegal t.resp := by
  obtain ⟨e, -, -, hexec⟩ | ⟨-, addr, cmd, payload, -, -, hexec⟩ | ⟨k, -, hexec⟩ := exec_cases i s
  · exact ⟨_, hexec, respLegal_respOfError e⟩
  · exact ⟨_, hexec, respLegal_transmit _ s⟩
  · exact ⟨_, hexec, respLegal_respOfLookup _ _⟩

/-- The next state of an operation has a legal RESP, whatever RESP was before. -/
theorem respLegal_of_exec {i : Instr} {s t : State} (h : exec i s = .next t) : RespLegal t.resp := by
  obtain ⟨u, hexec, hlegal⟩ := exec_completes i s
  cases hexec.symm.trans h
  exact hlegal

/-- A step keeps RESP legal. Only an idle step rests on the RESP before it. -/
theorem respLegal_of_step {s t : State} (h : step s = .next t) (hresp : RespLegal s.resp) : RespLegal t.resp := by
  obtain ⟨-, ⟨-, rfl⟩ | ⟨rest, -, rfl⟩ | ⟨w, r, rest, -, ⟨i, -, hexec⟩ | ⟨-, rfl⟩⟩⟩ := step_cases h
  · exact hresp
  · exact respLegal_respOk
  · exact respLegal_of_exec hexec
  · exact respLegal_respOfError .illegalRequest

/-- Besides RESP the invariant is about the configuration alone. -/
theorem State.Inv.of_sameConfig {s t : State} (hinv : s.Inv) (hconfig : SameConfig s t) (hresp : RespLegal t.resp) :
    t.Inv := by
  obtain ⟨-, hscreens, hmodBit, hkeyRom⟩ := hinv
  obtain ⟨hx, hy, hrom, hmod, -, -⟩ := hconfig
  refine ⟨hresp, ?_, ?_, ?_⟩
  · rw [hx, hy, hscreens]
  · rw [hmod, hmodBit]
  · rw [hrom, hkeyRom]

/-- Settles O46: a step keeps RESP legal (`respLegal_of_step`) and writes no configuration (O36). -/
theorem stepKeepsTheInvariant : Obligations.StepKeepsTheInvariant := by
  unfold Obligations.StepKeepsTheInvariant
  intro s t hinv h
  exact hinv.of_sameConfig (noStepWritesTheConfiguration s t h) (respLegal_of_step h hinv.1)

/-- Settles O33: `exec_completes`. -/
theorem everyOperationCompletes : Obligations.EveryOperationCompletes := by
  unfold Obligations.EveryOperationCompletes
  exact exec_completes

end Sys2Proof.Machine

/-! `Parse` accepts exactly the frames (rules R83 and R88), and obligation O4. -/

namespace Sys2Proof.Machine

/-- A frame whose LEN byte can count its payload is parsed back to what it was built from. -/
theorem parseFrame_buildFrame (addr cmd : Byte) {payload : List Byte} (h : payload.length ≤ 255) :
    parseFrame (buildFrame addr cmd payload) = some (addr, cmd, payload) := by
  have hlen := toNat_lenByte h
  show parseFrame (0x57 :: 0xAB :: addr :: cmd :: BitVec.ofNat 8 payload.length ::
    (payload ++ [sum8 (frameBody addr cmd payload)])) = _
  rw [parseFrame, if_pos, hlen, List.take_left]
  refine ⟨rfl, rfl, ?_, ?_⟩
  · rw [hlen, List.length_append, List.length_singleton]
  · rw [hlen, List.drop_left, List.take_left]
    rfl

/-- What `Parse` accepts is a frame of what it answers, whose payload LEN counts. -/
theorem eq_buildFrame_of_parseFrame {f : List Byte} {addr cmd : Byte} {payload : List Byte}
    (h : parseFrame f = some (addr, cmd, payload)) : payload.length ≤ 255 ∧ f = buildFrame addr cmd payload := by
  unfold parseFrame at h
  split at h
  · next h0 h1 a c len rest =>
    split at h
    · next hframe =>
      obtain ⟨rfl, rfl, hlength, hsum⟩ := hframe
      cases h
      have hbyte : len.toNat < 2 ^ 8 := len.isLt
      have hpayload : (rest.take len.toNat).length = len.toNat := by
        rw [List.length_take]
        omega
      have hlen : BitVec.ofNat 8 (rest.take len.toNat).length = len := by
        rw [hpayload, BitVec.ofNat_toNat, BitVec.setWidth_eq]
      refine ⟨by omega, ?_⟩
      rw [buildFrame, frameBody, hlen]
      show _ = 0x57 :: 0xAB :: addr :: cmd :: len :: (rest.take len.toNat ++
        [sum8 (0x57 :: 0xAB :: addr :: cmd :: len :: rest.take len.toNat)])
      rw [← hsum, List.take_append_drop]
    · cases h
  · cases h

/-- Settles O4: `Parse` inverts `Frame` where LEN can count the payload, and accepts nothing else. -/
theorem parseAcceptsExactlyFrames : Obligations.ParseAcceptsExactlyFrames := by
  unfold Obligations.ParseAcceptsExactlyFrames
  intro f addr cmd payload
  constructor
  · exact eq_buildFrame_of_parseFrame
  · rintro ⟨hlength, rfl⟩
    exact parseFrame_buildFrame addr cmd hlength

end Sys2Proof.Machine

/-! What an operation appends to TX: nothing, one whole frame of a known command, or what reached the link of one (rules R24,
R44, R46, R47 and R50), and obligations O6, O31, O32, O34 and O47. -/

namespace Sys2Proof.Machine

/-! ### The frame of an operation: RESP is written and TX is appended to, nothing else changes -/

/-- An operation writes one value to RESP and appends some bytes to TX. -/
theorem eq_respond_appendTx_of_exec {i : Instr} {s t : State} (h : exec i s = .next t) :
    ∃ bs v, t = respond v (appendTx bs s) := by
  obtain ⟨bs, v, hexec⟩ := exec_outcome s i s.reply
  cases (hexec s (sameConfig_refl s) rfl).symm.trans h
  exact ⟨bs, v, rfl⟩

/-- KEY_LOOKUP writes RESP alone, and never TransportError (rule R108). -/
theorem eq_respond_of_exec_keyLookup {k : Byte} {s t : State} (h : exec (.keyLookup k) s = .next t) :
    ∃ v, t = respond v s ∧ statusOf v ≠ 8 := by
  obtain ⟨e, htransport, -, hexec⟩ | ⟨hlookup, -⟩ | ⟨_, -, hexec⟩ := exec_cases (.keyLookup k) s
  · cases hexec.symm.trans h
    refine ⟨_, rfl, ?_⟩
    rw [statusOf_respOfError, ne_eq, Err.code_eq_eight]
    exact htransport
  · exact absurd rfl (hlookup k)
  · cases hexec.symm.trans h
    refine ⟨_, rfl, ?_⟩
    rw [statusOf_respOfLookup]
    decide

/-- Settles O34: `eq_respond_appendTx_of_exec` field by field. -/
theorem operationsChangeOnlyTxAndResp : Obligations.OperationsChangeOnlyTxAndResp := by
  unfold Obligations.OperationsChangeOnlyTxAndResp
  intro i s t h
  obtain ⟨bs, v, rfl⟩ := eq_respond_appendTx_of_exec h
  refine ⟨⟨bs, rfl, ?_⟩, sameConfig_of_exec h, rfl, rfl, rfl⟩
  rintro k rfl
  obtain ⟨u, hlookup, -⟩ := eq_respond_of_exec_keyLookup h
  simpa using congrArg State.tx hlookup

/-! ### Whole frames -/

/-- A frame of a known command with that command's length is a frame as `Parse` sees it (rules R84 and R88). -/
theorem commandFrame_buildFrame {addr cmd : Byte} {payload : List Byte} (h : expectedLen cmd = some payload.length) :
    CommandFrame (buildFrame addr cmd payload) :=
  ⟨addr, cmd, payload, parseFrame_buildFrame addr cmd ((expectedLen_le cmd _ h).trans (by decide)), h⟩

theorem wholeFrames_nil : WholeFrames [] := ⟨[], rfl, by simp⟩

/-- One more frame after whole frames. -/
theorem WholeFrames.append {bs f : List Byte} (hbs : WholeFrames bs) (hf : CommandFrame f) : WholeFrames (bs ++ f) := by
  obtain ⟨fs, rfl, hall⟩ := hbs
  refine ⟨fs ++ [f], by simp, ?_⟩
  intro g hg
  obtain hg | hg := List.mem_append.mp hg
  · exact hall g hg
  · rw [List.mem_singleton.mp hg]
    exact hf

/-- Where the transport takes the write, an operation keeps TX a sequence of whole frames. -/
theorem wholeFrames_of_exec {i : Instr} {s t : State} (h : exec i s = .next t) (hreply : s.reply = .ok)
    (htx : WholeFrames s.tx) : WholeFrames t.tx := by
  obtain ⟨e, -, -, hexec⟩ | ⟨-, addr, cmd, payload, hknown, -, hexec⟩ | ⟨k, -, hexec⟩ := exec_cases i s
  · cases hexec.symm.trans h
    exact htx
  · rw [transmit_taken hreply] at hexec
    cases hexec.symm.trans h
    exact htx.append (commandFrame_buildFrame hknown)
  · cases hexec.symm.trans h
    exact htx

/-- A request presented without a failing write has one that is taken. -/
theorem replyOk_request {w : Request} {r : WriteResult} (h : (Arrival.request w r).replyOk = true) : r = .ok := by
  cases r with
  | ok => rfl
  | ioError k => cases h

/-- Settles O47: the arrival that a step takes is one of a list without failing writes, and what is left of the list is such
a list. An idle step changes nothing, a reset empties TX, an illegal request leaves TX as it was, and an operation appends at
most a whole frame. -/
theorem stepKeepsWholeFrames : Obligations.StepKeepsWholeFrames := by
  unfold Obligations.StepKeepsWholeFrames
  intro s t hreplies htx h
  obtain ⟨-, ⟨-, rfl⟩ | ⟨rest, harrivals, rfl⟩ | ⟨w, r, rest, harrivals, hdone⟩⟩ := step_cases h
  · exact ⟨hreplies, htx⟩
  · rw [State.RepliesOk, harrivals, List.forall_mem_cons] at hreplies
    exact ⟨hreplies.2, wholeFrames_nil⟩
  · rw [State.RepliesOk, harrivals, List.forall_mem_cons] at hreplies
    obtain ⟨hfirst, hrest⟩ := hreplies
    cases replyOk_request hfirst
    obtain ⟨i, -, hexec⟩ | ⟨-, rfl⟩ := hdone
    · obtain ⟨bs, v, rfl⟩ := eq_respond_appendTx_of_exec hexec
      exact ⟨hrest, wholeFrames_of_exec hexec rfl htx⟩
    · exact ⟨hrest, htx⟩

/-! ### What STATUS and a failing write tell -/

/-- Settles O32: an error and a lookup append nothing, and a frame that is handed over is whole where it ends with OK. -/
theorem statusTellsWhetherAFrameWasSent : Obligations.StatusTellsWhetherAFrameWasSent := by
  unfold Obligations.StatusTellsWhetherAFrameWasSent
  intro i s t h
  refine ⟨?sent, ?raised, ?lookup⟩
  case sent =>
    intro hstatus hlookup
    obtain ⟨e, -, -, hexec⟩ | ⟨-, addr, cmd, payload, hknown, -, hexec⟩ | ⟨k, rfl, -⟩ := exec_cases i s
    · cases hexec.symm.trans h
      rw [raiseError_resp, statusOf_respOfError] at hstatus
      exact absurd hstatus e.code_ne_zero
    · cases hexec.symm.trans h
      obtain ⟨hreply, htransmit⟩ | ⟨k, -, htransmit⟩ := transmit_cases (buildFrame addr cmd payload) s
      · rw [htransmit]
        exact ⟨_, rfl, commandFrame_buildFrame hknown⟩
      · rw [htransmit, raiseError_resp, statusOf_respOfError] at hstatus
        exact absurd hstatus (Err.code_ne_zero _)
    · exact absurd rfl (hlookup k)
  case raised =>
    intro hok htransport
    obtain ⟨e, rfl⟩ := exec_raised h hok htransport
    rfl
  case lookup =>
    rintro ⟨k, rfl⟩
    obtain ⟨v, rfl, hstatus⟩ := eq_respond_of_exec_keyLookup h
    exact ⟨rfl, hstatus⟩

/-- On every answer of the transport an operation hands over the same frame, or none. -/
theorem exec_withReply (i : Instr) (s : State) :
    (∃ v, ∀ r, exec i { s with reply := r } = .next (respond v { s with reply := r })) ∨
      ∃ frame, ∀ r, exec i { s with reply := r } = .next (transmit frame { s with reply := r }) := by
  obtain ⟨f, ⟨v, hrespond⟩ | ⟨frame, htransmit⟩, hexec⟩ := exec_decidedBy s i
  · exact .inl ⟨v, fun r => (hexec _).trans (congrArg _ (hrespond { s with reply := r }))⟩
  · exact .inr ⟨frame, fun r => (hexec _).trans (congrArg _ (htransmit { s with reply := r }))⟩

/-- Settles O31: what is appended where the write is taken is the frame that is handed over where it fails. Its first
bytes `g` are left by a failure after `g.length` bytes. -/
theorem transportFailureLeavesAPrefix : Obligations.TransportFailureLeavesAPrefix := by
  unfold Obligations.TransportFailureLeavesAPrefix
  intro i s t f h htx hne
  have hfail : ∀ k : Nat, exec i { s with reply := .ioError k } =
      .next { s with reply := .ioError k, tx := s.tx ++ f.take k, resp := 0x00000008 } := by
    obtain ⟨v, hexec⟩ | ⟨frame, hexec⟩ := exec_withReply i s
    · cases (hexec .ok).symm.trans h
      exact absurd (List.self_eq_append_right.mp htx) hne
    · intro k
      have htaken := (hexec .ok).symm.trans h
      rw [transmit_taken rfl] at htaken
      cases htaken
      cases List.append_cancel_left htx
      rw [hexec, transmit_ioError _ _ k rfl]
  refine ⟨hfail, fun g hg => ⟨g.length, _, hfail g.length, ?_⟩⟩
  rw [← List.prefix_iff_eq_take.mp hg]

/-! ### The encoders -/

theorem Err.code_eq_five (e : Err) : e.code = 5 ↔ e = .frameLength := by cases e <;> decide

theorem Err.code_eq_six (e : Err) : e.code = 6 ↔ e = .command := by cases e <;> decide

/-- The size of a frame by its command, for each command and length of rule R84 (rule R86). -/
theorem buildFrame_size {addr cmd : Byte} {payload : List Byte} (h : expectedLen cmd = some payload.length) :
    (cmd = 0x02 ∧ (buildFrame addr cmd payload).length = 14) ∨
      (cmd = 0x04 ∧ (buildFrame addr cmd payload).length = 13) ∨
      (cmd = 0x05 ∧ (buildFrame addr cmd payload).length = 11) := by
  rw [buildFrame_length]
  obtain ⟨hcmd, hlen⟩ | ⟨hcmd, hlen⟩ | ⟨hcmd, hlen⟩ | ⟨-, hlen⟩ := expectedLen_cases cmd <;>
    simp only [hlen, Option.some.injEq, reduceCtorEq] at h
  · exact .inl ⟨hcmd, by omega⟩
  · exact .inr (.inl ⟨hcmd, by omega⟩)
  · exact .inr (.inr ⟨hcmd, by omega⟩)

/-- Settles O6: an encoder raises neither of FRAME's errors, and the frame it hands over has address 0 and the size of its
command. -/
theorem encoderFramesHaveFixedSizes : Obligations.EncoderFramesHaveFixedSizes := by
  unfold Obligations.EncoderFramesHaveFixedSizes
  intro i s t hencoder h
  obtain ⟨e, -, herror, hexec⟩ | ⟨-, addr, cmd, payload, hknown, haddr, hexec⟩ | ⟨k, -, hexec⟩ := exec_cases i s
  · cases hexec.symm.trans h
    obtain ⟨hlength, hcommand⟩ := herror hencoder
    rw [raiseError_resp, statusOf_respOfError, ne_eq, ne_eq, Err.code_eq_five, Err.code_eq_six]
    exact ⟨hlength, hcommand, fun _ => .inl rfl⟩
  · cases hexec.symm.trans h
    cases haddr hencoder
    have hstatus : statusOf (transmit (buildFrame 0x00 cmd payload) s).resp ≠ 5 ∧
        statusOf (transmit (buildFrame 0x00 cmd payload) s).resp ≠ 6 := by
      obtain hstatus | hstatus := statusOf_transmit (buildFrame 0x00 cmd payload) s <;> rw [hstatus] <;> decide
    refine ⟨hstatus.1, hstatus.2, fun hreply => .inr ⟨cmd, payload, ?_, buildFrame_size hknown⟩⟩
    rw [transmit_taken hreply]
    rfl
  · cases hexec.symm.trans h
    rw [respond_resp, statusOf_respOfLookup]
    exact ⟨by decide, by decide, fun _ => .inl rfl⟩

end Sys2Proof.Machine

/-! Encoding and decoding as inverses (rules R60 to R69, decisions D2 and D3), and obligation O48. -/

namespace Sys2Proof.Machine

/-- Settles O48: `decode_encode`. -/
theorem decodeInvertsEncode : Obligations.DecodeInvertsEncode := by
  unfold Obligations.DecodeInvertsEncode
  exact decode_encode

end Sys2Proof.Machine

/-! The outcome of each operation: its checks in order and the frame it hands over byte by byte (rules R80 to R87, R108 and
R120 to R128), and obligations O5, O9, O17, O18, O19 and O20. -/

namespace Sys2Proof.Machine

/-! ### Handing over -/

/-- An operation that hands over the frame `f` ends, by the transport's answer, with RESP = 0 and `f` in TX, or with
TransportError and what reached the link of `f` (rules R44 and R46). -/
theorem exec_of_transmit {i : Instr} {s : State} {f : List Byte} (h : exec i s = .next (transmit f s)) :
    (s.reply = .ok → exec i s = .next { s with tx := s.tx ++ f, resp := 0x00000000 }) ∧
      ∀ k : Nat, s.reply = .ioError k → exec i s = .next { s with tx := s.tx ++ f.take k, resp := 0x00000008 } := by
  constructor
  · intro hreply
    rw [h, transmit_ok f s hreply]
  · intro k hreply
    rw [h, transmit_ioError f s k hreply]

/-! ### packet_framer and hid_keycode_rom -/

section Frame

variable {addr cmd len : Byte} {payload : Vector Byte 12} {s : State}

theorem exec_frame_command (h : expectedLen cmd = none) :
    exec (.frame addr cmd len payload) s = .next (raiseError .command s) := by
  simp only [exec, execFrame, frameEffect, h]

theorem exec_frame_frameLength {n : Nat} (h : expectedLen cmd = some n) (hlen : len.toNat ≠ n) :
    exec (.frame addr cmd len payload) s = .next (raiseError .frameLength s) := by
  simp only [exec, execFrame, frameEffect, h, if_pos hlen]

theorem exec_frame_transmit (h : expectedLen cmd = some len.toNat) :
    exec (.frame addr cmd len payload) s =
      .next (transmit (buildFrame addr cmd (payload.toList.take len.toNat)) s) := by
  simp only [exec, execFrame, frameEffect, h, ne_eq, not_true_eq_false, ↓reduceIte]

end Frame

/-- The table of rule R84. -/
theorem expectedLen_eq_some {cmd : Byte} {n : Nat}
    (h : (cmd = 0x02 ∧ n = 8) ∨ (cmd = 0x04 ∧ n = 7) ∨ (cmd = 0x05 ∧ n = 5)) : expectedLen cmd = some n := by
  obtain ⟨rfl, rfl⟩ | ⟨rfl, rfl⟩ | ⟨rfl, rfl⟩ := h <;> rfl

theorem expectedLen_eq_none {cmd : Byte} (h2 : cmd ≠ 0x02) (h4 : cmd ≠ 0x04) (h5 : cmd ≠ 0x05) :
    expectedLen cmd = none :=
  (if_neg h2).trans ((if_neg h4).trans (if_neg h5))

/-- Settles O5: the command and then the length are checked, and of the twelve payload bytes LEN are sent. -/
theorem frameRequestOutcome : Obligations.FrameRequestOutcome := by
  unfold Obligations.FrameRequestOutcome
  intro addr cmd len payload s
  refine ⟨fun h2 h4 h5 => exec_frame_command (expectedLen_eq_none h2 h4 h5), fun n hcmd => ?_⟩
  have hknown := expectedLen_eq_some hcmd
  refine ⟨exec_frame_frameLength hknown, ?_⟩
  rintro rfl f rfl
  have hle := expectedLen_le cmd _ hknown
  have hcount : BitVec.ofNat 8 (payload.toList.take len.toNat).length = len := ofNat_length_take len payload (by omega)
  have hframe := buildFrame_eq addr cmd (payload.toList.take len.toNat)
  rw [hcount] at hframe
  rw [← hframe]
  exact exec_of_transmit (exec_frame_transmit hknown)

/-- The RESP of a lookup as a number: SHIFT is bit 16 and SCAN starts at bit 8 (rule R22, decision D5). -/
theorem respOfLookup_eq_ofNat (scan : Byte) (shift : Bool) :
    respOfLookup scan shift = BitVec.ofNat 32 (shift.toNat * 65536 + scan.toNat * 256) := by
  revert scan
  cases shift <;> decide

theorem exec_keyLookup_unknownKey {key : Byte} {s : State} (h : (romRead s.keyRom key).valid = false) :
    exec (.keyLookup key) s = .next (raiseError .unknownKey s) := by
  simp only [exec, execKeyLookup, keyLookupEffect, h, ↓reduceIte]

theorem exec_keyLookup_valid {key : Byte} {s : State} (h : (romRead s.keyRom key).valid = true) :
    exec (.keyLookup key) s =
      .next (respond (respOfLookup (romRead s.keyRom key).scan (romRead s.keyRom key).shift) s) := by
  simp only [exec, execKeyLookup, keyLookupEffect, h, Bool.true_eq_false, ↓reduceIte]

/-- Settles O9: an invalid entry is an error, a valid one is the number that RESP takes. -/
theorem keyLookupOutcome : Obligations.KeyLookupOutcome := by
  unfold Obligations.KeyLookupOutcome
  intro k s
  refine ⟨exec_keyLookup_unknownKey, ?_⟩
  rintro hvalid v rfl
  rw [exec_keyLookup_valid hvalid, respOfLookup_eq_ofNat]
  rfl

/-! ### keyboard_encoder -/

/-- MODS[15:12] is the check for unknown names (rule R123). -/
theorem unknownModifiers_eq_true {mods : BitVec 16} (h : mods.extractLsb' 12 4 ≠ 0) : unknownModifiers mods = true :=
  bne_iff_ne.mpr h

theorem unknownModifiers_eq_false {mods : BitVec 16} (h : mods.extractLsb' 12 4 = 0) : unknownModifiers mods = false :=
  bne_eq_false_iff_eq.mpr h

/-- The modifier byte with and without the implicit shift, as one OR (rule R125). -/
theorem modByteWith_eq (t : Vector (BitVec 3) 12) (m : BitVec 12) (implied : Bool) :
    modByteWith t m implied = modByte t m ||| if implied then 1#8 <<< (modBitOf t .shift).toNat else 0 := by
  cases implied with
  | false => exact BitVec.or_zero.symm
  | true => rfl

/-- The frame of a keyboard report, byte by byte (rules R80, R82 and R120). -/
theorem buildFrame_keyboardReport (mb : Byte) {scans : List Byte} (h : scans.length ≤ 6) :
    buildFrame addrDefault cmdKb (keyboardReport mb scans) =
      [0x57, 0xAB, 0x00, 0x02, 0x08, mb, 0x00] ++ padSlots scans ++
        [0x0C + mb + (padSlots scans).foldl (· + ·) 0] := by
  have hlength : (keyboardReport mb scans).length = 8 := by
    rw [keyboardReport, List.length_append, padSlots_length scans h]
    rfl
  have hsum : (keyboardReport mb scans).foldl (· + ·) 0 = mb + (padSlots scans).foldl (· + ·) 0 := by
    rw [keyboardReport, List.foldl_append, foldl_add_start]
    simp
  rw [buildFrame_eq, hlength, hsum, ← BitVec.add_assoc]
  rfl

/-- The outcome of an operation that hands over a keyboard report, its frame byte by byte. -/
theorem exec_of_keyboardReport {i : Instr} {s : State} {mb : Byte} {scans : List Byte}
    (h : exec i s = .next (transmitReport cmdKb (keyboardReport mb scans) s)) (hscans : scans.length ≤ 6) {f : List Byte}
    (hf : f = [0x57, 0xAB, 0x00, 0x02, 0x08, mb, 0x00] ++ padSlots scans ++
      [0x0C + mb + (padSlots scans).foldl (· + ·) 0]) :
    (s.reply = .ok → exec i s = .next { s with tx := s.tx ++ f, resp := 0x00000000 }) ∧
      ∀ k : Nat, s.reply = .ioError k → exec i s = .next { s with tx := s.tx ++ f.take k, resp := 0x00000008 } := by
  rw [transmitReport, buildFrame_keyboardReport mb hscans, ← hf] at h
  exact exec_of_transmit h

section KbPress

variable {key : Byte} {mods : BitVec 16} {s : State}

theorem exec_kbPress_unknownKey (h : (romRead s.keyRom key).valid = false) :
    exec (.kbPress key mods) s = .next (raiseError .unknownKey s) := by
  simp only [exec, execKbPress, kbPressEffect, h, ↓reduceIte]

theorem exec_kbPress_unknownModifier (hvalid : (romRead s.keyRom key).valid = true)
    (hmods : mods.extractLsb' 12 4 ≠ 0) :
    exec (.kbPress key mods) s = .next (raiseError .unknownModifier s) := by
  simp only [exec, execKbPress, kbPressEffect, hvalid, unknownModifiers_eq_true hmods, Bool.true_eq_false, ↓reduceIte]

theorem exec_kbPress_report (hvalid : (romRead s.keyRom key).valid = true) (hmods : mods.extractLsb' 12 4 = 0) :
    exec (.kbPress key mods) s = .next (transmitReport cmdKb
      (keyboardReport (modByteWith s.modBit (nameSet mods) (romRead s.keyRom key).shift)
        [(romRead s.keyRom key).scan]) s) := by
  simp only [exec, execKbPress, kbPressEffect, hvalid, unknownModifiers_eq_false hmods, Bool.true_eq_false,
    Bool.false_eq_true, ↓reduceIte]

end KbPress

/-- Settles O17: the key is checked, then the modifiers, and then the report has one slot filled. -/
theorem kbPressOutcome : Obligations.KbPressOutcome := by
  unfold Obligations.KbPressOutcome
  intro key mods s
  refine ⟨exec_kbPress_unknownKey, exec_kbPress_unknownModifier, ?_⟩
  rintro hvalid hmods mb sc f hmb rfl rfl
  refine exec_of_keyboardReport (mb := mb) (scans := [(romRead s.keyRom key).scan]) ?_ (by simp) ?_
  · rw [exec_kbPress_report hvalid hmods, modByteWith_eq, hmb]
    rfl
  · simp [padSlots, List.replicate]

/-- Settles O18: the report is the same every time. -/
theorem kbReleaseOutcome : Obligations.KbReleaseOutcome := by
  unfold Obligations.KbReleaseOutcome
  rintro s f rfl
  exact exec_of_transmit rfl

section KbTrigger

variable {nkeys : BitVec 4} {mods : BitVec 16} {keys : Vector Byte 12} {s : State}

theorem exec_kbTrigger_illegalRequest (h : 12 < nkeys.toNat) :
    exec (.kbTrigger nkeys mods keys) s = .next (raiseError .illegalRequest s) := by
  simp only [exec, execKbTrigger, kbTriggerEffect, gt_iff_lt, if_pos h]

variable (hcount : nkeys.toNat ≤ 12)

include hcount

theorem exec_kbTrigger_tooManyKeys
    (h : 6 < (dedup (keys.toList.take nkeys.toNat)).length ∨ 8 < popcount mods) :
    exec (.kbTrigger nkeys mods keys) s = .next (raiseError .tooManyKeys s) := by
  simp only [exec, execKbTrigger, kbTriggerEffect, gt_iff_lt, if_neg hcount.not_gt, if_pos h]

variable (hkeys : (dedup (keys.toList.take nkeys.toNat)).length ≤ 6) (hnames : popcount mods ≤ 8)

include hkeys hnames

theorem exec_kbTrigger_unknownModifier (hmods : mods.extractLsb' 12 4 ≠ 0) :
    exec (.kbTrigger nkeys mods keys) s = .next (raiseError .unknownModifier s) := by
  simp only [exec, execKbTrigger, kbTriggerEffect, gt_iff_lt, hcount.not_gt, hkeys.not_gt, hnames.not_gt, or_self,
    unknownModifiers_eq_true hmods, ↓reduceIte]

variable (hmods : mods.extractLsb' 12 4 = 0)

include hmods

theorem exec_kbTrigger_unknownKey
    (h : ∃ k ∈ dedup (keys.toList.take nkeys.toNat), (romRead s.keyRom k).valid = false) :
    exec (.kbTrigger nkeys mods keys) s = .next (raiseError .unknownKey s) := by
  obtain ⟨hvalid, -⟩ | ⟨-, hlookup⟩ := lookupAll_cases s.keyRom (dedup (keys.toList.take nkeys.toNat))
  · obtain ⟨k, hk, hinvalid⟩ := h
    rw [hvalid k hk] at hinvalid
    cases hinvalid
  · simp only [exec, execKbTrigger, kbTriggerEffect, gt_iff_lt, hcount.not_gt, hkeys.not_gt, hnames.not_gt, or_self,
      unknownModifiers_eq_false hmods, Bool.false_eq_true, ↓reduceIte, hlookup]

theorem exec_kbTrigger_report
    (h : ∀ k ∈ dedup (keys.toList.take nkeys.toNat), (romRead s.keyRom k).valid = true) :
    exec (.kbTrigger nkeys mods keys) s = .next (transmitReport cmdKb
      (triggerReport s mods ((dedup (keys.toList.take nkeys.toNat)).map (romRead s.keyRom))) s) := by
  obtain ⟨-, hlookup⟩ | ⟨⟨k, hk, hinvalid⟩, -⟩ := lookupAll_cases s.keyRom (dedup (keys.toList.take nkeys.toNat))
  · simp only [exec, execKbTrigger, kbTriggerEffect, gt_iff_lt, hcount.not_gt, hkeys.not_gt, hnames.not_gt, or_self,
      unknownModifiers_eq_false hmods, Bool.false_eq_true, ↓reduceIte, hlookup]
  · rw [h k hk] at hinvalid
    cases hinvalid

end KbTrigger

/-- The implicit shift of a KB_TRIGGER, as its condition is stated (rule R128, decision D18). -/
theorem modByteWith_trigger (s : State) (m : BitVec 12) (es : List RomEntry) :
    modByteWith s.modBit m (s.triggerAppliesShift && es.any (·.shift)) =
      (modByte s.modBit m ||| if s.triggerAppliesShift = true ∧ ∃ e ∈ es, e.shift = true
        then 1#8 <<< (modBitOf s.modBit .shift).toNat else 0) := by
  simp only [modByteWith_eq, Bool.and_eq_true, List.any_eq_true]

/-- Settles O19: the four checks in the order of rule R191, and then the report, whose slots are the scan codes of the
distinct keys. -/
theorem kbTriggerOutcome : Obligations.KbTriggerOutcome := by
  unfold Obligations.KbTriggerOutcome
  rintro nkeys mods keys s dk es names rfl rfl rfl
  rw [← popcount_eq_card]
  refine ⟨exec_kbTrigger_illegalRequest, exec_kbTrigger_tooManyKeys, exec_kbTrigger_unknownModifier, ?unknownKey, ?report⟩
  case unknownKey =>
    rintro hcount hkeys hnames hmods ⟨e, he, hinvalid⟩
    obtain ⟨k, hk, rfl⟩ := List.mem_map.mp he
    exact exec_kbTrigger_unknownKey hcount hkeys hnames hmods ⟨k, hk, hinvalid⟩
  case report =>
    rintro hcount hkeys hnames hmods hvalid mb slots f rfl rfl rfl
    rw [List.forall_mem_map] at hvalid
    have hlength : (((dedup (keys.toList.take nkeys.toNat)).map (romRead s.keyRom)).map (·.scan)).length =
        (dedup (keys.toList.take nkeys.toNat)).length := by rw [List.length_map, List.length_map]
    rw [← hlength] at hkeys ⊢
    refine ⟨padSlots_length _ hkeys, exec_of_keyboardReport ?_ hkeys rfl⟩
    rw [exec_kbTrigger_report hcount (hlength ▸ hkeys) hnames hmods hvalid, triggerReport, modByteWith_trigger]
    rfl

@[simp] theorem dedup_nil : dedup [] = [] := rfl

@[simp] theorem dedup_singleton (k : Byte) : dedup [k] = [k] := rfl

@[simp] theorem take_one_entries (keys : Vector Byte 12) : keys.toList.take 1 = [keys[0]] := by
  simp [List.take_one, List.head?_eq_getElem?]

/-- Settles O20: one entry is its own distinct list, and its report is that of the press; no entry and no modifier give the
all-up report. -/
theorem triggerOfOneKeyIsPress : Obligations.TriggerOfOneKeyIsPress := by
  unfold Obligations.TriggerOfOneKeyIsPress
  constructor
  · rintro key mods keys s rfl hshift hnames hchecked
    rw [← popcount_eq_card] at hnames
    have hkeys : (dedup (keys.toList.take (1 : BitVec 4).toNat)).length ≤ 6 := by simp
    by_cases hmods : mods.extractLsb' 12 4 = 0
    · cases hvalid : (romRead s.keyRom keys[0]).valid with
      | false =>
        rw [exec_kbPress_unknownKey hvalid,
          exec_kbTrigger_unknownKey (by decide) hkeys hnames hmods (by simpa using hvalid)]
      | true =>
        rw [exec_kbPress_report hvalid hmods,
          exec_kbTrigger_report (by decide) hkeys hnames hmods (by simpa using hvalid),
          triggerReport]
        simp [hshift]
    · rw [exec_kbPress_unknownModifier (hchecked.resolve_right hmods) hmods,
        exec_kbTrigger_unknownModifier (by decide) hkeys hnames hmods]
  · intro keys s
    have hnone : dedup (keys.toList.take (0 : BitVec 4).toNat) = [] := rfl
    rw [exec_kbTrigger_report (by decide) (by simp) (by decide) (by decide) (by simp),
      triggerReport, hnone, List.map_nil, List.any_nil, Bool.and_false, modByteWith_zero]
    rfl

end Sys2Proof.Machine

/-! What `powerOn` builds (rules R26, R30, R101, R106, R121 and R221, log 11), and obligations O11, O44 and O45. -/

namespace Sys2Proof.Machine

/-- An instance that passes the four checks is built, as its state after reset. -/
theorem powerOn_next {p : Instance} (hscreens : screensOk p.screenX p.screenY = true) (hmodBit : modBitOk p.modBit = true)
    (hkeyRom : keyRomOk p.keyRom = true) (hrequesters : requestersOk p.requesters = true) :
    powerOn p = .next (State.ofInstance p) := by
  simp [powerOn, instanceRefusal, hscreens, hmodBit, hkeyRom, hrequesters]

/-- What is built has passed the checks of its screen size and its tables. -/
theorem ofInstance_of_powerOn {p : Instance} {s : State} (h : powerOn p = .next s) :
    s = State.ofInstance p ∧ screensOk p.screenX p.screenY = true ∧ modBitOk p.modBit = true ∧
      keyRomOk p.keyRom = true := by
  unfold powerOn at h
  split at h
  · cases h
  · next hbuilt =>
    cases h
    unfold instanceRefusal at hbuilt
    split_ifs at hbuilt with hscreens hmodBit hkeyRom hrequesters
    exact ⟨rfl, eq_true_of_ne_false hscreens, eq_true_of_ne_false hmodBit, eq_true_of_ne_false hkeyRom⟩

/-- A zero screen size fails the check of rule R26. -/
theorem screensOk_eq_false {x y : BitVec 16} (h : x = 0 ∨ y = 0) : screensOk x y = false := by
  obtain rfl | rfl := h <;> simp [screensOk]

/-- On a well-formed instance every step answers a next state. -/
theorem step_completes {s : State} (hscreens : screensOk s.cfgScreenX s.cfgScreenY = true) : ∃ t, step s = .next t := by
  cases harrivals : s.arrivals with
  | nil => exact ⟨_, step_idle hscreens harrivals⟩
  | cons a rest =>
    cases a with
    | reset => exact ⟨_, step_reset hscreens harrivals⟩
    | request w r =>
      obtain ⟨bs, v, hstep⟩ := step_request_outcome hscreens w r
      exact ⟨_, hstep s rest (sameConfig_refl s) harrivals⟩

/-- Settles O44: the screen size is the first check of `powerOn` and the one check of `step`. -/
theorem zeroResolutionIsRefused : Obligations.ZeroResolutionIsRefused := by
  unfold Obligations.ZeroResolutionIsRefused
  refine ⟨?refused, ?noStep, ?built, ?steps⟩
  case refused =>
    intro p hzero
    simp [powerOn, instanceRefusal, screensOk_eq_false hzero]
  case noStep =>
    intro s hzero
    simp [step, screensOk_eq_false hzero]
  case built =>
    intro p hx hy hmodBit hkeyRom hrequesters
    rw [ne_eq, ← requestersOk_eq_false_iff, Bool.not_eq_false] at hrequesters
    exact powerOn_next (screensOk_of_ne_zero hx hy) hmodBit hkeyRom hrequesters
  case steps =>
    intro s hx hy
    exact step_completes (screensOk_of_ne_zero hx hy)

/-- The instance of `State.reset` is built (log 4). -/
theorem powerOn_defaultInstance : powerOn defaultInstance = .next State.reset :=
  powerOn_next (by decide) (by decide) (by decide +kernel) rfl

/-- What is built meets the invariants, with nothing sent and nothing presented yet. -/
theorem invariants_of_powerOn {p : Instance} {s : State} (h : powerOn p = .next s) :
    s.Inv ∧ WholeFrames s.tx ∧ s.RepliesOk := by
  obtain ⟨rfl, hscreens, hmodBit, hkeyRom⟩ := ofInstance_of_powerOn h
  refine ⟨⟨respLegal_respOk, hscreens, hmodBit, hkeyRom⟩, wholeFrames_nil, ?_⟩
  rw [State.RepliesOk, ofInstance_arrivals]
  exact List.forall_mem_nil _

/-- Settles O45: `State.reset` is one of the built instances. -/
theorem resetMeetsTheInvariant : Obligations.ResetMeetsTheInvariant := by
  unfold Obligations.ResetMeetsTheInvariant
  exact ⟨fun p s => invariants_of_powerOn, invariants_of_powerOn powerOn_defaultInstance⟩

/-- Settles O11: the check of KEY_ROM pins the two entries. -/
theorem lookupOfLetterAIsPinned : Obligations.LookupOfLetterAIsPinned := by
  unfold Obligations.LookupOfLetterAIsPinned
  intro p s h
  obtain ⟨rfl, -, -, hkeyRom⟩ := ofInstance_of_powerOn h
  obtain ⟨-, ha, hA⟩ := (keyRomOk_iff _).mp hkeyRom
  rw [← ofInstance_keyRom] at ha hA
  constructor
  · rw [exec_keyLookup_valid (by rw [ha]; rfl), ha]
    rfl
  · rw [exec_keyLookup_valid (by rw [hA]; rfl), hA]
    rfl

end Sys2Proof.Machine

/-! The default tables and RESP value by value (rules R22, R23, R103, R104 and R151), and obligations O8, O10, O12 and O29. -/

namespace Sys2Proof.Machine

/-- Settles O29: the four entries of the table. -/
theorem defaultButtonCodes : Obligations.DefaultButtonCodes := by
  unfold Obligations.DefaultButtonCodes
  exact ⟨rfl, rfl, rfl, rfl⟩

/-- Settles O12: the letters and digits are read entry by entry. -/
theorem letterAndDigitScanCodes : Obligations.LetterAndDigitScanCodes := by
  unfold Obligations.LetterAndDigitScanCodes
  refine ⟨?letters, ?digits, rfl⟩
  case letters => decide
  case digits => decide

/-- Settles O10: an error has one of eight codes, a lookup's entry one of 512 values. -/
theorem respFieldsReadBack : Obligations.RespFieldsReadBack := by
  unfold Obligations.RespFieldsReadBack
  constructor
  · intro e
    cases e <;> decide
  · intro scan shift
    revert scan
    cases shift <;> decide

/-- The valid entries of the default KEY_ROM are those of rules R103 and R104. -/
theorem valid_defaultKeyRom_iff (k : Byte) : (romRead defaultKeyRom k).valid = true ↔ listedKey k := by
  revert k
  decide +kernel

/-- Settles O8: KEY_LOOKUP, KB_PRESS and KB_TRIGGER of one key without modifiers fail on its entry or not at all. -/
theorem listedKeysAndOnlyThoseAreKnown : Obligations.ListedKeysAndOnlyThoseAreKnown := by
  unfold Obligations.ListedKeysAndOnlyThoseAreKnown
  rintro k s keys hrom rfl
  have hlisted : (romRead s.keyRom keys[0]).valid = true ↔ listedKey keys[0] := by
    rw [hrom]
    exact valid_defaultKeyRom_iff _
  refine ⟨hlisted, ?known, ?unknown⟩
  case known =>
    intro hkey hreply
    have hvalid := hlisted.mpr hkey
    refine ⟨_, _, _, exec_keyLookup_valid hvalid, exec_kbPress_report hvalid (by decide),
      exec_kbTrigger_report (by decide) (by simp) (by decide) (by decide) (by simpa using hvalid), ?_, ?_, ?_⟩
    · exact statusOf_respOfLookup _ _
    · rw [transmitReport, transmit_taken hreply]
      rfl
    · rw [transmitReport, transmit_taken hreply]
      rfl
  case unknown =>
    intro hkey
    have hvalid := Bool.eq_false_iff.mpr fun hvalid => hkey (hlisted.mp hvalid)
    exact ⟨exec_keyLookup_unknownKey hvalid, exec_kbPress_unknownKey hvalid,
      exec_kbTrigger_unknownKey (by decide) (by simp) (by decide) (by decide) (by simpa using hvalid)⟩

end Sys2Proof.Machine

/-! Modifier names that share a bit, and the implicit shift (rules R121, R122, R124 and R125), and obligations O14 and
O15. -/

namespace Sys2Proof.Machine

/-- The names that set the bits of `v` in the default modifier byte: the right-side forms for bits 7 to 4, the left-side
forms for bits 3 to 0 (rules R68 and R121). -/
def sideNames (v : Byte) : BitVec 12 :=
  let bit (j : Nat) : BitVec 1 := v.extractLsb' j 1
  bit 7 ++ bit 3 ++ 0#1 ++ bit 6 ++ bit 2 ++ 0#1 ++ bit 5 ++ bit 1 ++ 0#1 ++ bit 4 ++ bit 0 ++ 0#1

theorem modByte_sideNames (v : Byte) : modByte defaultModBit (sideNames v) = v := by
  revert v
  decide +kernel

/-- Settles O14: what is built has passed the check of MOD_BIT, which says just this; `sideNames` reaches every byte. -/
theorem modifierNamesShareBitsOnlyByAliasing : Obligations.ModifierNamesShareBitsOnlyByAliasing := by
  unfold Obligations.ModifierNamesShareBitsOnlyByAliasing
  constructor
  · intro p s h
    obtain ⟨rfl, -, hmodBit, -⟩ := ofInstance_of_powerOn h
    exact (modBitOk_iff _).mp hmodBit
  · intro v
    exact ⟨sideNames v, modByte_sideNames v⟩

/-- The modifier byte with the implicit shift has the bit of `shift` besides those of the named modifiers (rule R125). -/
theorem modByteWith_true_bit (t : Vector (BitVec 3) 12) (m : BitVec 12) (b : Nat) :
    (modByteWith t m true).getLsbD b = true ↔
      (modByte t m).getLsbD b = true ∨ b = (modBitOf t .shift).toNat := by
  rw [modByteWith, if_pos rfl, BitVec.getLsbD_or, Bool.or_eq_true, shiftBit, modMask_bit]

/-- A set with a name that shares its bit with `shift` has the implicit shift already. -/
theorem modByteWith_true_of_named {t : Vector (BitVec 3) 12} {m : BitVec 12} {n : ModName}
    (hnamed : m.getLsbD (modPos n).val = true) (hshared : modBitOf t n = modBitOf t .shift) :
    modByteWith t m true = modByte t m := by
  refine BitVec.eq_of_getLsbD_eq fun b _ => Bool.eq_iff_iff.mpr ?_
  rw [modByteWith_true_bit, or_iff_left_iff_imp]
  rintro rfl
  exact (modByte_bit t m _).mpr ⟨n, hnamed, by rw [hshared]⟩

/-- Settles O15: in what is built `shift_left` shares its bit with `shift`. -/
theorem implicitShiftIsDeduplicated : Obligations.ImplicitShiftIsDeduplicated := by
  unfold Obligations.ImplicitShiftIsDeduplicated
  intro p s h m
  obtain ⟨rfl, -, hmodBit, -⟩ := ofInstance_of_powerOn h
  refine ⟨?_, modByteWith_true_bit _ m⟩
  rintro (hnamed | hnamed)
  · exact modByteWith_true_of_named hnamed rfl
  · exact modByteWith_true_of_named hnamed (((modBitOk_iff _).mp hmodBit _ _).mpr (by decide))

end Sys2Proof.Machine

/-! `Dedup` (rule R129, decision D17), and obligation O16. -/

namespace Sys2Proof.Machine

/-- `dedupFrom` on the rest `ks` of a list, with the entries `before` it seen, keeps those that no earlier entry of the whole
list equals. -/
theorem dedupFrom_eq_filter (before seen ks : List Byte) (hseen : ∀ k, k ∈ seen ↔ k ∈ before) :
    dedupFrom seen ks =
      ((ks.zipIdx before.length).filter fun p => !((before ++ ks).take p.2).contains p.1).map (·.1) := by
  induction ks generalizing before seen with
  | nil => rfl
  | cons k ks ih =>
    have hrest : ∀ seen', (∀ j, j ∈ seen' ↔ j ∈ before ++ [k]) → dedupFrom seen' ks =
        ((ks.zipIdx (before.length + 1)).filter fun p => !((before ++ k :: ks).take p.2).contains p.1).map (·.1) := by
      intro seen' hseen'
      have := ih (before ++ [k]) seen' hseen'
      rwa [List.length_append, List.length_singleton, List.append_assoc, List.singleton_append] at this
    rw [dedupFrom, List.zipIdx_cons, List.filter_cons, List.take_left]
    by_cases hk : k ∈ before
    · rw [if_pos (by simpa [hseen] using hk), if_neg (by simpa using hk)]
      refine hrest seen fun j => ?_
      rw [hseen, List.mem_append, List.mem_singleton, iff_self_or]
      rintro rfl
      exact hk
    · rw [if_neg (by simpa [hseen] using hk), if_pos (by simpa using hk), List.map_cons]
      refine congrArg (k :: ·) (hrest (k :: seen) fun j => ?_)
      rw [List.mem_cons, hseen, List.mem_append, List.mem_singleton, or_comm]

/-- Settles O16: `dedupFrom` with nothing seen. -/
theorem dedupKeepsFirstOccurrences : Obligations.DedupKeepsFirstOccurrences := by
  unfold Obligations.DedupKeepsFirstOccurrences
  intro ks
  refine ⟨dedupFrom_eq_filter [] [] ks (by simp), nodup_dedupFrom ks [], fun k => ?_⟩
  rw [dedup, mem_dedupFrom]
  simp

end Sys2Proof.Machine

/-! The delta byte and the scaling laws (rules R153, R155 and R162, decisions D13 and D14), and obligations O22 and O24. -/

namespace Sys2Proof.Machine

/-- Settles O22: out of range there is no byte; in range it is `byte8`, which as an integer is `d`. -/
theorem deltaByteEncoding : Obligations.DeltaByteEncoding := by
  unfold Obligations.DeltaByteEncoding
  intro d
  obtain ⟨hout, hd⟩ | ⟨⟨hlo, hhi⟩, hd⟩ := deltaByte_cases d
  · exact ⟨fun _ => hd, fun _ _ => by omega, by simp [hd]⟩
  · refine ⟨fun _ => by omega, fun _ _ => ⟨_, hd, byte8_toInt d hlo hhi⟩, ?_⟩
    rw [hd, ne_eq, Option.some_inj]
    exact byte8_ne_0x80 d hlo hhi

/-- A coordinate is on the screen exactly when its scaled value is on the grid of 4096 (rule R155, decision D14). -/
theorem lt_iff_scale_le {p s : BitVec 16} (hs : 1 ≤ s.toNat) : p.toNat < s.toNat ↔ scale p s ≤ 4095 := by
  rw [scale, ← Nat.lt_succ_iff, Nat.div_lt_iff_lt_mul hs]
  omega

theorem scale_mono {p q : BitVec 16} (s : BitVec 16) (h : p.toNat ≤ q.toNat) : scale p s ≤ scale q s :=
  Nat.div_le_div_right (Nat.mul_le_mul_left 4096 h)

/-- Settles O24: a multiple of the divisor divides out, and the other two laws are those of the floor division. -/
theorem scaleLaws : Obligations.ScaleLaws := by
  unfold Obligations.ScaleLaws
  refine ⟨?zero, fun p q s => scale_mono s, fun p s => lt_iff_scale_le, ?identity, ?half⟩
  case zero =>
    intro s
    exact Nat.zero_div _
  case identity =>
    intro p
    exact Nat.mul_div_cancel_left p.toNat (by decide)
  case half =>
    intro p s hs hhalf
    have hproduct : 4096 * p.toNat = 2048 * s.toNat := by omega
    rw [scale, hproduct, Nat.mul_div_cancel _ hs]

end Sys2Proof.Machine

/-! The outcome of the mouse operations, byte by byte (rules R156 to R161), and obligations O25, O26 and O27. -/

namespace Sys2Proof.Machine

/-- A wheel in range has the byte `byte8` (rule R152). -/
theorem wheelByte_sext16 {w : BitVec 16} (h : -127 ≤ w.toInt) (h' : w.toInt ≤ 127) :
    wheelByte (sext16 w) = some (byte8 w.toInt) := by
  obtain ⟨hout, -⟩ | ⟨-, hbyte⟩ := wheelByte_cases w.toInt
  · omega
  · exact hbyte

/-- A wheel out of range has none. -/
theorem wheelByte_sext16_range {w : BitVec 16} (h : w.toInt < -127 ∨ 127 < w.toInt) : wheelByte (sext16 w) = none := by
  obtain ⟨-, hnone⟩ | ⟨hin, -⟩ := wheelByte_cases w.toInt
  · exact hnone
  · omega

section MsAbs

variable {btn : Button} {wheel x y : BitVec 16} {s : State}

theorem exec_msAbs_wheelRange (h : wheel.toInt < -127 ∨ 127 < wheel.toInt) :
    exec (.msAbs btn wheel x y) s = .next (raiseError .range s) := by
  simp only [exec, execMsAbs, msAbsEffect, wheelByte_sext16_range h]

/-- A coordinate off the screen raises RangeError, whatever the wheel is. -/
theorem exec_msAbs_screenRange (h : s.cfgScreenX.toNat ≤ x.toNat ∨ s.cfgScreenY.toNat ≤ y.toNat) :
    exec (.msAbs btn wheel x y) s = .next (raiseError .range s) := by
  cases hwheel : wheelByte (sext16 wheel) with
  | none => simp only [exec, execMsAbs, msAbsEffect, hwheel]
  | some wb => simp only [exec, execMsAbs, msAbsEffect, hwheel, ge_iff_le, if_pos h]

theorem exec_msAbs_report (hlo : -127 ≤ wheel.toInt) (hhi : wheel.toInt ≤ 127) (hx : x.toNat < s.cfgScreenX.toNat)
    (hy : y.toNat < s.cfgScreenY.toNat) :
    exec (.msAbs btn wheel x y) s = .next (transmitReport cmdMsAbs
      (absPayload (btnByte s.btnCode btn) (scale x s.cfgScreenX) (scale y s.cfgScreenY) (byte8 wheel.toInt)) s) := by
  simp only [exec, execMsAbs, msAbsEffect, wheelByte_sext16 hlo hhi, ge_iff_le, hx.not_ge, hy.not_ge, or_self, ↓reduceIte]

end MsAbs

/-- The frame of an absolute report, byte by byte (rules R80, R82 and R156). -/
theorem buildFrame_absPayload (b wb : Byte) (xs ys : Nat) :
    buildFrame addrDefault cmdMsAbs (absPayload b xs ys wb) =
      [0x57, 0xAB, 0x00, 0x04, 0x07, 0x02, b, BitVec.ofNat 8 xs, BitVec.ofNat 8 (xs / 256), BitVec.ofNat 8 ys,
        BitVec.ofNat 8 (ys / 256), wb,
        0x0F + b + BitVec.ofNat 8 xs + BitVec.ofNat 8 (xs / 256) + BitVec.ofNat 8 ys + BitVec.ofNat 8 (ys / 256) + wb] := by
  rw [buildFrame_eq, absPayload, lo8_eq, hi8_eq, lo8_eq, hi8_eq]
  simp [addrDefault, cmdMsAbs, ← BitVec.add_assoc]

/-- Settles O25: the wheel is checked and then the coordinates, both with one error. -/
theorem msAbsOutcome : Obligations.MsAbsOutcome := by
  unfold Obligations.MsAbsOutcome
  intro btn wheel x y s
  refine ⟨exec_msAbs_wheelRange, exec_msAbs_screenRange, ?_⟩
  rintro hlo hhi hx hy xs ys b wb f rfl rfl rfl rfl rfl
  have hexec := exec_msAbs_report (btn := btn) hlo hhi hx hy
  rw [transmitReport, buildFrame_absPayload] at hexec
  exact exec_of_transmit hexec

/-- Settles O26: status OK leaves the reported case, in which both coordinates are on the screen. -/
theorem absoluteCoordinatesFitTheGrid : Obligations.AbsoluteCoordinatesFitTheGrid := by
  unfold Obligations.AbsoluteCoordinatesFitTheGrid
  intro btn wheel x y s t hreply h hstatus
  have hin : (-127 ≤ wheel.toInt ∧ wheel.toInt ≤ 127) ∧ x.toNat < s.cfgScreenX.toNat ∧ y.toNat < s.cfgScreenY.toNat := by
    by_contra hout
    have hrange : exec (.msAbs btn wheel x y) s = .next (raiseError .range s) := by
      by_cases hwheel : wheel.toInt < -127 ∨ 127 < wheel.toInt
      · exact exec_msAbs_wheelRange hwheel
      · exact exec_msAbs_screenRange (by omega)
    cases hrange.symm.trans h
    rw [raiseError_resp, statusOf_respOfError] at hstatus
    exact absurd hstatus (Err.code_ne_zero _)
  obtain ⟨⟨hlo, hhi⟩, hx, hy⟩ := hin
  have hexec := exec_msAbs_report (btn := btn) hlo hhi hx hy
  rw [transmitReport, transmit_taken hreply] at hexec
  cases hexec.symm.trans h
  have hxs := (lt_iff_scale_le (by omega)).mp hx
  have hys := (lt_iff_scale_le (by omega)).mp hy
  exact ⟨_, _, _, _, _, rfl, rfl, rfl, rfl, rfl, lo8_hi8 _ (by omega), lo8_hi8 _ (by omega), hxs, hys⟩

section MsRel

variable {btn : Button} {wheel dx dy : BitVec 16} {s : State}

theorem exec_msRel_deltaRange (h : ¬ DeltasInRange dx dy) :
    exec (.msRel btn wheel dx dy) s = .next (raiseError .range s) :=
  congrArg Host.Outcome.next (msRelEffect_range h)

/-- A wheel out of range raises RangeError, whatever the deltas are. -/
theorem exec_msRel_wheelRange (h : wheel.toInt < -127 ∨ 127 < wheel.toInt) :
    exec (.msRel btn wheel dx dy) s = .next (raiseError .range s) := by
  by_cases hdeltas : DeltasInRange dx dy
  · obtain ⟨hx, hx', hy, hy'⟩ := hdeltas
    simp only [exec, execMsRel, msRelEffect, deltaByte_sext16 hx hx', deltaByte_sext16 hy hy', wheelByte_sext16_range h]
  · exact exec_msRel_deltaRange hdeltas

theorem exec_msRel_report (h : DeltasInRange dx dy) (hlo : -127 ≤ wheel.toInt) (hhi : wheel.toInt ≤ 127) :
    exec (.msRel btn wheel dx dy) s = .next (transmitReport cmdMsRel
      (relPayload (btnByte s.btnCode btn) (byte8 dx.toInt) (byte8 dy.toInt) (byte8 wheel.toInt)) s) := by
  obtain ⟨hx, hx', hy, hy'⟩ := h
  simp only [exec, execMsRel, msRelEffect, deltaByte_sext16 hx hx', deltaByte_sext16 hy hy', wheelByte_sext16 hlo hhi]

end MsRel

/-- The frame of a relative report, byte by byte (rules R80, R82 and R157). -/
theorem buildFrame_relPayload (b xb yb wb : Byte) :
    buildFrame addrDefault cmdMsRel (relPayload b xb yb wb) =
      [0x57, 0xAB, 0x00, 0x05, 0x05, 0x01, b, xb, yb, wb, 0x0D + b + xb + yb + wb] := by
  rw [buildFrame_eq, relPayload]
  simp [addrDefault, cmdMsRel, ← BitVec.add_assoc]

/-- Settles O27: the deltas and the wheel are checked, all with one error. -/
theorem msRelOutcome : Obligations.MsRelOutcome := by
  unfold Obligations.MsRelOutcome
  intro btn wheel dx dy s
  constructor
  · intro hout
    by_cases hdeltas : DeltasInRange dx dy
    · exact exec_msRel_wheelRange (by omega)
    · exact exec_msRel_deltaRange hdeltas
  · rintro hx hx' hy hy' hlo hhi b xb yb wb f rfl rfl rfl rfl rfl
    have hexec := exec_msRel_report (btn := btn) (s := s) ⟨hx, hx', hy, hy'⟩ hlo hhi
    rw [transmitReport, buildFrame_relPayload] at hexec
    exact exec_of_transmit hexec

end Sys2Proof.Machine

/-! The screen size, which MS_ABS alone reads (rules R25 and R160, decision D15), and obligation O28. -/

namespace Sys2Proof.Machine

/-- The state with another screen size. -/
def State.withScreen (x y : BitVec 16) (s : State) : State := { s with cfgScreenX := x, cfgScreenY := y }

/-- Handing over a frame does not look at the screen size. -/
theorem transmit_withScreen (x y : BitVec 16) (f : List Byte) (s : State) :
    transmit f (s.withScreen x y) = (transmit f s).withScreen x y := by
  obtain ⟨hreply, htransmit⟩ | ⟨k, hreply, htransmit⟩ := transmit_cases f s
  · rw [htransmit, transmit_ok f (s.withScreen x y) hreply]
    rfl
  · rw [htransmit, transmit_ioError f (s.withScreen x y) k hreply]
    rfl

section WithScreen

variable {i : Instr} {x y : BitVec 16} {s : State}

theorem exec_withScreen_of_respond {v : BitVec 32} (h : exec i s = .next (respond v s))
    (h' : exec i (s.withScreen x y) = .next (respond v (s.withScreen x y))) :
    ∃ t, exec i s = .next t ∧ exec i (s.withScreen x y) = .next (t.withScreen x y) := ⟨_, h, h'⟩

theorem exec_withScreen_of_transmit {f : List Byte} (h : exec i s = .next (transmit f s))
    (h' : exec i (s.withScreen x y) = .next (transmit f (s.withScreen x y))) :
    ∃ t, exec i s = .next t ∧ exec i (s.withScreen x y) = .next (t.withScreen x y) :=
  ⟨_, h, by rw [h', transmit_withScreen]⟩

end WithScreen

/-- Every operation but MS_ABS makes the same checks and sends the same frame with another screen size. -/
theorem exec_withScreen {i : Instr} (hi : ∀ b w px py, i ≠ .msAbs b w px py) (x y : BitVec 16) (s : State) :
    ∃ t, exec i s = .next t ∧ exec i (s.withScreen x y) = .next (t.withScreen x y) := by
  cases i with
  | kbPress key mods =>
    by_cases hvalid : (romRead s.keyRom key).valid = true
    · by_cases hmods : mods.extractLsb' 12 4 = 0
      · exact exec_withScreen_of_transmit (exec_kbPress_report hvalid hmods) (exec_kbPress_report hvalid hmods)
      · exact exec_withScreen_of_respond (exec_kbPress_unknownModifier hvalid hmods)
          (exec_kbPress_unknownModifier hvalid hmods)
    · rw [Bool.not_eq_true] at hvalid
      exact exec_withScreen_of_respond (exec_kbPress_unknownKey hvalid) (exec_kbPress_unknownKey hvalid)
  | kbRelease => exact exec_withScreen_of_transmit rfl rfl
  | kbTrigger nkeys mods keys =>
    by_cases hcount : 12 < nkeys.toNat
    · exact exec_withScreen_of_respond (exec_kbTrigger_illegalRequest hcount) (exec_kbTrigger_illegalRequest hcount)
    rw [not_lt] at hcount
    by_cases hslots : 6 < (dedup (keys.toList.take nkeys.toNat)).length ∨ 8 < popcount mods
    · exact exec_withScreen_of_respond (exec_kbTrigger_tooManyKeys hcount hslots)
        (exec_kbTrigger_tooManyKeys hcount hslots)
    rw [not_or, not_lt, not_lt] at hslots
    obtain ⟨hkeys, hnames⟩ := hslots
    by_cases hmods : mods.extractLsb' 12 4 = 0
    · obtain ⟨hvalid, -⟩ | ⟨hinvalid, -⟩ := lookupAll_cases s.keyRom (dedup (keys.toList.take nkeys.toNat))
      · exact exec_withScreen_of_transmit (exec_kbTrigger_report hcount hkeys hnames hmods hvalid)
          (exec_kbTrigger_report hcount hkeys hnames hmods hvalid)
      · exact exec_withScreen_of_respond (exec_kbTrigger_unknownKey hcount hkeys hnames hmods hinvalid)
          (exec_kbTrigger_unknownKey hcount hkeys hnames hmods hinvalid)
    · exact exec_withScreen_of_respond (exec_kbTrigger_unknownModifier hcount hkeys hnames hmods)
        (exec_kbTrigger_unknownModifier hcount hkeys hnames hmods)
  | msAbs b w px py => exact absurd rfl (hi b w px py)
  | msRel btn wheel dx dy =>
    by_cases hdeltas : DeltasInRange dx dy
    · by_cases hwheel : wheel.toInt < -127 ∨ 127 < wheel.toInt
      · exact exec_withScreen_of_respond (exec_msRel_wheelRange hwheel) (exec_msRel_wheelRange hwheel)
      · rw [not_or, not_lt, not_lt] at hwheel
        exact exec_withScreen_of_transmit (exec_msRel_report hdeltas hwheel.1 hwheel.2)
          (exec_msRel_report hdeltas hwheel.1 hwheel.2)
    · exact exec_withScreen_of_respond (exec_msRel_deltaRange hdeltas) (exec_msRel_deltaRange hdeltas)
  | frame addr cmd len payload =>
    cases hcmd : expectedLen cmd with
    | none => exact exec_withScreen_of_respond (exec_frame_command hcmd) (exec_frame_command hcmd)
    | some n =>
      by_cases hlen : len.toNat = n
      · subst hlen
        exact exec_withScreen_of_transmit (exec_frame_transmit hcmd) (exec_frame_transmit hcmd)
      · exact exec_withScreen_of_respond (exec_frame_frameLength hcmd hlen) (exec_frame_frameLength hcmd hlen)
  | keyLookup key =>
    by_cases hvalid : (romRead s.keyRom key).valid = true
    · exact exec_withScreen_of_respond (exec_keyLookup_valid hvalid) (exec_keyLookup_valid hvalid)
    · rw [Bool.not_eq_true] at hvalid
      exact exec_withScreen_of_respond (exec_keyLookup_unknownKey hvalid) (exec_keyLookup_unknownKey hvalid)

/-- Settles O28: `exec_withScreen`. -/
theorem onlyMsAbsReadsTheScreen : Obligations.OnlyMsAbsReadsTheScreen := by
  unfold Obligations.OnlyMsAbsReadsTheScreen
  intro i s x y hi
  exact exec_withScreen hi x y s

end Sys2Proof.Machine

/-! What a step does with the next arrival (rules R7, R21, R70, R187 and R200), and obligations O37, O38, O40 and O41. -/

namespace Sys2Proof.Machine

/-- Settles O40: `step_idle`. -/
theorem idleCoreHoldsItsState : Obligations.IdleCoreHoldsItsState := by
  unfold Obligations.IdleCoreHoldsItsState
  exact fun s => step_idle

/-- Settles O37: `step_request`, whose accepted state has the three fields as stated. -/
theorem stepRunsTheDecodedRequest : Obligations.StepRunsTheDecodedRequest := by
  unfold Obligations.StepRunsTheDecodedRequest
  exact fun s w r rest i => step_request

/-- Settles O41: `step_request_outcome` on the state itself. -/
theorem oneStepPerRequest : Obligations.OneStepPerRequest := by
  unfold Obligations.OneStepPerRequest
  intro s w r rest hscreens harrivals
  obtain ⟨bs, v, hstep⟩ := step_request_outcome hscreens w r
  have htaken := hstep s rest (sameConfig_refl s) harrivals
  exact ⟨_, htaken, rfl, rfl, List.prefix_append _ _, noStepWritesTheConfiguration _ _ htaken⟩

/-- OP alone decides whether a word is that of an operation (rules R61 and R70). -/
theorem decode_cases (w : Request) :
    ((1 ≤ (opField w).toNat ∧ (opField w).toNat ≤ 7) ∧ ∃ i, decode w = .ok i) ∨
      (((opField w).toNat = 0 ∨ 8 ≤ (opField w).toNat) ∧ ∃ j, decode w = .error j) := by
  by_cases hop : 1 ≤ (opField w).toNat ∧ (opField w).toNat ≤ 7
  · refine .inl ⟨hop, ?_⟩
    obtain ⟨hlo, hhi⟩ := hop
    rw [decode]
    interval_cases (opField w).toNat <;> exact ⟨_, rfl⟩
  · refine .inr ⟨by omega, .unassignedOp (opField w), ?_⟩
    unfold decode
    split
    case h_8 => rfl
    all_goals omega

/-- Settles O38: the two cases of `decode_cases`, the second of which raises IllegalRequest. -/
theorem unassignedOperationsAreIllegal : Obligations.UnassignedOperationsAreIllegal := by
  unfold Obligations.UnassignedOperationsAreIllegal
  intro w
  change (_ ↔ 1 ≤ (opField w).toNat ∧ (opField w).toNat ≤ 7) ∧ ((opField w).toNat = 0 ∨ 8 ≤ (opField w).toNat → _)
  obtain ⟨hop, hdecodes⟩ | ⟨hop, j, hdecode⟩ := decode_cases w
  · exact ⟨iff_of_true hdecodes hop, fun _ => by omega⟩
  · refine ⟨iff_of_false ?_ (by omega), fun _ s r rest hscreens harrivals => step_illegal hscreens harrivals hdecode⟩
    rintro ⟨i, hi⟩
    cases hdecode.symm.trans hi

end Sys2Proof.Machine

/-! The two steps of `kb.tap` and of `ms.click` (rule R72, decision D26), and obligation O51. -/

namespace Sys2Proof.Machine

section Steps

variable {s : State} {rest : List Arrival} (hscreens : screensOk s.cfgScreenX s.cfgScreenY = true)

include hscreens

/-- The step of a press of a known key with known modifiers, its write taken (rule R126). -/
theorem step_kbPress_taken {key : Byte} {mods : BitVec 16}
    (harrivals : s.arrivals = .request (encode (.kbPress key mods)) .ok :: rest)
    (hvalid : (romRead s.keyRom key).valid = true) (hmods : mods.extractLsb' 12 4 = 0) :
    step s = .next (respond 0 (appendTx (buildFrame 0x00 0x02
      (keyboardReport (modByteWith s.modBit (nameSet mods) (romRead s.keyRom key).shift) [(romRead s.keyRom key).scan]))
      (accept .ok rest s))) := by
  rw [step_encoded hscreens harrivals, exec_kbPress_report (s := accept .ok rest s) hvalid hmods]
  exact congrArg Host.Outcome.next (transmit_taken rfl)

/-- The step of `ms.rel 0, 0, B, 0`, its write taken (rule R159). -/
theorem step_pressRequest_taken {btn : Button}
    (harrivals : s.arrivals = .request (encode (pressRequest btn)) .ok :: rest) :
    step s = .next (respond 0 (appendTx (buildFrame 0x00 0x05 [0x01, btnByte s.btnCode btn, 0x00, 0x00, 0x00])
      (accept .ok rest s))) := by
  rw [step_encoded hscreens harrivals]
  exact congrArg Host.Outcome.next (msRelEffect_taken rfl (by decide))

end Steps

/-- Settles O51: the press or the button held is the first step, the all-up report or the button cleared the second, on the
same configuration. -/
theorem tapAndClickSendTwoFrames : Obligations.TapAndClickSendTwoFrames := by
  unfold Obligations.TapAndClickSendTwoFrames
  constructor
  · intro key mods s hscreens hvalid hmods harrivals
    have hpress := step_kbPress_taken hscreens harrivals hvalid hmods
    exact ⟨_, (run_succ 1 hpress).trans (run_succ 0 (step_release hscreens rfl)), rfl, rfl, rfl⟩
  · intro btn s hscreens harrivals
    have hheld := step_pressRequest_taken hscreens harrivals
    refine ⟨_, (run_succ 1 hheld).trans (run_succ 0 (step_pressRequest_taken (btn := .none) ?_ rfl)), rfl, rfl, rfl⟩
    exact hscreens

end Sys2Proof.Machine

/-! The fields of a request word and the bits that its format lists (rules R60 to R69, decisions D2 to D4), and obligations
O39, O49 and O50. -/

namespace Sys2Proof.Machine

/-- Settles O50: the decoder evaluates each of the eight words. -/
theorem specExamplesDecode : Obligations.SpecExamplesDecode := by
  unfold Obligations.SpecExamplesDecode
  refine ⟨?_, ?_, ?_, ?_, ?_, ?_, ?_, ?_⟩ <;> decide

/-! ### Decoding by OP -/

section Decode

variable {w : Request}

theorem decode_kbPress (h : opField w = 0x1) : decode w = .ok (.kbPress (byte1Field w) (half1Field w)) := by
  rw [decode, h]; rfl

theorem decode_kbRelease (h : opField w = 0x2) : decode w = .ok .kbRelease := by rw [decode, h]; rfl

theorem decode_kbTrigger (h : opField w = 0x3) :
    decode w = .ok (.kbTrigger (nkeysField w) (half1Field w) (entriesField w)) := by rw [decode, h]; rfl

theorem decode_msAbs (h : opField w = 0x4) :
    decode w = .ok (.msAbs (buttonOf (btnField w)) (half1Field w) (half2Field w) (half3Field w)) := by
  rw [decode, h]; rfl

theorem decode_msRel (h : opField w = 0x5) :
    decode w = .ok (.msRel (buttonOf (btnField w)) (half1Field w) (half2Field w) (half3Field w)) := by
  rw [decode, h]; rfl

theorem decode_frame (h : opField w = 0x6) :
    decode w = .ok (.frame (byte1Field w) (byte2Field w) (byte3Field w) (entriesField w)) := by rw [decode, h]; rfl

theorem decode_keyLookup (h : opField w = 0x7) : decode w = .ok (.keyLookup (byte1Field w)) := by rw [decode, h]; rfl

end Decode

/-- OP is one of the seven of rule R61, or it is unassigned (rule R70). -/
theorem op_cases (op : BitVec 4) :
    op = 0x1 ∨ op = 0x2 ∨ op = 0x3 ∨ op = 0x4 ∨ op = 0x5 ∨ op = 0x6 ∨ op = 0x7 ∨ op.toNat = 0 ∨ 8 ≤ op.toNat := by
  revert op
  decide

/-! ### A word as its fields -/

/-- The twelve entries of a word are REQ[127:32]. -/
theorem packEntries_entriesField (w : Request) : packEntries (entriesField w) = w.extractLsb' 32 96 := by
  simp only [packEntries, entriesField, Vector.getElem_ofFn, entryField]
  repeat rw [BitVec.extractLsb'_append_extractLsb'_eq_extractLsb' (by decide)]

section Masked

variable (w : Request)

/-- A masked word in the layout of formats KP, KR and KT (rules R62 to R64). -/
theorem and_keyboardLayout (entries : BitVec 96) (mods : BitVec 16) (key : Byte) (nkeys op : BitVec 4) :
    w &&& (entries ++ mods ++ key ++ nkeys ++ op) =
      (w.extractLsb' 32 96 &&& entries) ++ (half1Field w &&& mods) ++ (byte1Field w &&& key) ++
        (nkeysField w &&& nkeys) ++ (opField w &&& op) := by
  have hword : w.extractLsb' 32 96 ++ half1Field w ++ byte1Field w ++ nkeysField w ++ opField w = w := by
    simp only [half1Field, byte1Field, nkeysField, opField]
    repeat rw [BitVec.extractLsb'_append_extractLsb'_eq_extractLsb' (by decide)]
    exact BitVec.extractLsb'_eq_self
  simp only [← BitVec.and_append, hword]

/-- A masked word in the layout of formats MA and MR (rules R65 and R66). -/
theorem and_mouseLayout (high : BitVec 64) (y x wheel : BitVec 16) (gap : BitVec 6) (btn : BitVec 2) (low op : BitVec 4) :
    w &&& (high ++ y ++ x ++ wheel ++ gap ++ btn ++ low ++ op) =
      (w.extractLsb' 64 64 &&& high) ++ (half3Field w &&& y) ++ (half2Field w &&& x) ++ (half1Field w &&& wheel) ++
        (w.extractLsb' 10 6 &&& gap) ++ (btnField w &&& btn) ++ (nkeysField w &&& low) ++ (opField w &&& op) := by
  have hword : w.extractLsb' 64 64 ++ half3Field w ++ half2Field w ++ half1Field w ++ w.extractLsb' 10 6 ++ btnField w ++
      nkeysField w ++ opField w = w := by
    simp only [half3Field, half2Field, half1Field, btnField, nkeysField, opField]
    repeat rw [BitVec.extractLsb'_append_extractLsb'_eq_extractLsb' (by decide)]
    exact BitVec.extractLsb'_eq_self
  simp only [← BitVec.and_append, hword]

/-- A masked word in the layout of format FR (rule R67). -/
theorem and_frameLayout (entries : BitVec 96) (len cmd addr : Byte) (low op : BitVec 4) :
    w &&& (entries ++ len ++ cmd ++ addr ++ low ++ op) =
      (w.extractLsb' 32 96 &&& entries) ++ (byte3Field w &&& len) ++ (byte2Field w &&& cmd) ++ (byte1Field w &&& addr) ++
        (nkeysField w &&& low) ++ (opField w &&& op) := by
  have hword : w.extractLsb' 32 96 ++ byte3Field w ++ byte2Field w ++ byte1Field w ++ nkeysField w ++ opField w = w := by
    simp only [byte3Field, byte2Field, byte1Field, nkeysField, opField]
    repeat rw [BitVec.extractLsb'_append_extractLsb'_eq_extractLsb' (by decide)]
    exact BitVec.extractLsb'_eq_self
  simp only [← BitVec.and_append, hword]

end Masked

/-! ### The masks, field by field -/

theorem formatMask_kbPress :
    formatMask 0x1 = 0#96 ++ BitVec.allOnes 16 ++ BitVec.allOnes 8 ++ 0#4 ++ BitVec.allOnes 4 := by decide

theorem formatMask_kbRelease : formatMask 0x2 = 0#96 ++ 0#16 ++ 0#8 ++ 0#4 ++ BitVec.allOnes 4 := by decide

theorem formatMask_kbTrigger :
    formatMask 0x3 = BitVec.allOnes 96 ++ BitVec.allOnes 16 ++ 0#8 ++ BitVec.allOnes 4 ++ BitVec.allOnes 4 := by decide

theorem formatMask_msAbs :
    formatMask 0x4 = 0#64 ++ BitVec.allOnes 16 ++ BitVec.allOnes 16 ++ BitVec.allOnes 16 ++ 0#6 ++ BitVec.allOnes 2 ++
      0#4 ++ BitVec.allOnes 4 := by decide

theorem formatMask_msRel : formatMask 0x5 = formatMask 0x4 := rfl

theorem formatMask_frame :
    formatMask 0x6 = BitVec.allOnes 96 ++ BitVec.allOnes 8 ++ BitVec.allOnes 8 ++ BitVec.allOnes 8 ++ 0#4 ++
      BitVec.allOnes 4 := by decide

theorem formatMask_keyLookup :
    formatMask 0x7 = 0#96 ++ 0#16 ++ BitVec.allOnes 8 ++ 0#4 ++ BitVec.allOnes 4 := by decide

/-- Settles O49: in the layout of its format the word keeps the fields that are listed, and loses the bits between them. -/
theorem encodeInvertsDecode : Obligations.EncodeInvertsDecode := by
  unfold Obligations.EncodeInvertsDecode
  intro w i h
  change encode i = w &&& formatMask (opField w)
  obtain hop | hop | hop | hop | hop | hop | hop | hop := op_cases (opField w)
  · cases (decode_kbPress hop).symm.trans h
    rw [hop, formatMask_kbPress, and_keyboardLayout, hop]
    simp only [BitVec.and_allOnes, BitVec.and_zero]
    rfl
  · cases (decode_kbRelease hop).symm.trans h
    rw [hop, formatMask_kbRelease, and_keyboardLayout, hop]
    simp only [BitVec.and_allOnes, BitVec.and_zero]
    rfl
  · cases (decode_kbTrigger hop).symm.trans h
    rw [hop, formatMask_kbTrigger, and_keyboardLayout, hop]
    simp only [BitVec.and_allOnes, BitVec.and_zero, encode, operandBits, packEntries_entriesField]
    rfl
  · cases (decode_msAbs hop).symm.trans h
    rw [hop, formatMask_msAbs, and_mouseLayout, hop]
    simp only [BitVec.and_allOnes, BitVec.and_zero, encode, operandBits, buttonBits_buttonOf]
    rfl
  · cases (decode_msRel hop).symm.trans h
    rw [hop, formatMask_msRel, formatMask_msAbs, and_mouseLayout, hop]
    simp only [BitVec.and_allOnes, BitVec.and_zero, encode, operandBits, buttonBits_buttonOf]
    rfl
  · cases (decode_frame hop).symm.trans h
    rw [hop, formatMask_frame, and_frameLayout, hop]
    simp only [BitVec.and_allOnes, BitVec.and_zero, encode, operandBits, packEntries_entriesField]
    rfl
  · cases (decode_keyLookup hop).symm.trans h
    rw [hop, formatMask_keyLookup, and_keyboardLayout, hop]
    simp only [BitVec.and_allOnes, BitVec.and_zero]
    rfl
  · obtain ⟨hassigned, -⟩ | ⟨-, j, hdecode⟩ := decode_cases w
    · omega
    · cases hdecode.symm.trans h

/-! ### The bits that are read -/

/-- Two words that agree under a mask have every field in common whose bits the mask keeps. -/
theorem slice_eq_of_and_eq {n : Nat} {w w' mask : BitVec n} {start len : Nat} (h : w &&& mask = w' &&& mask)
    (hmask : mask.extractLsb' start len = BitVec.allOnes len) : w.extractLsb' start len = w'.extractLsb' start len := by
  have hslice := congrArg (BitVec.extractLsb' start len) h
  rwa [BitVec.extractLsb'_and, BitVec.extractLsb'_and, hmask, BitVec.and_allOnes, BitVec.and_allOnes] at hslice

/-- REQ[31:0] and the entries below the count are kept. -/
theorem entriesBelow_slice {n start len : Nat} (h : start + len ≤ 32 + 8 * min n 12) :
    (entriesBelow n).extractLsb' start len = BitVec.allOnes len := by
  refine BitVec.eq_of_getLsbD_eq fun j hj => ?_
  have hbelow : start + j < 32 + 8 * min n 12 := by omega
  have hword : start + j < 128 := by omega
  simp [entriesBelow, BitVec.getLsbD_ofNat, Nat.testBit_two_pow_sub_one, hj, hbelow, hword]

/-- The formats without counted entries are read as far as they list bits (rules R62, R63, R65 and R66). -/
theorem readMask_eq_formatMask {w : Request} (h3 : opField w ≠ 0x3) (h6 : opField w ≠ 0x6) :
    readMask w = formatMask (opField w) := by
  unfold readMask
  split
  · next h => exact absurd (BitVec.eq_of_toNat_eq h) h3
  · next h => exact absurd (BitVec.eq_of_toNat_eq h) h6
  · rfl

theorem readMask_kbTrigger {w : Request} (h : opField w = 0x3) :
    readMask w = formatMask 0x3 &&& entriesBelow (nkeysField w).toNat := by rw [readMask, h]; rfl

theorem readMask_frame {w : Request} (h : opField w = 0x6) :
    readMask w = formatMask 0x6 &&& entriesBelow (byte3Field w).toNat := by rw [readMask, h]; rfl

/-- A field below the entries is read where its format lists it, and entry `j` where the count is above `j`. -/
theorem counted_slice {op : BitVec 4} {n start len : Nat}
    (hformat : (formatMask op).extractLsb' start len = BitVec.allOnes len) (h : start + len ≤ 32 + 8 * min n 12) :
    (formatMask op &&& entriesBelow n).extractLsb' start len = BitVec.allOnes len := by
  rw [BitVec.extractLsb'_and, hformat, entriesBelow_slice h, BitVec.and_allOnes]

/-- OP is always read. -/
theorem readMask_op (w : Request) : (readMask w).extractLsb' 0 4 = BitVec.allOnes 4 := by
  have hop (op : BitVec 4) : (formatMask op).extractLsb' 0 4 = BitVec.allOnes 4 := by
    revert op
    decide
  by_cases h3 : opField w = 0x3
  · rw [readMask_kbTrigger h3]
    exact counted_slice (hop _) (by omega)
  by_cases h6 : opField w = 0x6
  · rw [readMask_frame h6]
    exact counted_slice (hop _) (by omega)
  rw [readMask_eq_formatMask h3 h6]
  exact hop _

/-- Words that agree below the count have the same entries there. -/
theorem take_entriesField_congr {w w' mask : Request} {n : Nat} (h : w &&& mask = w' &&& mask)
    (hmask : ∀ j, j < min n 12 → mask.extractLsb' (32 + 8 * j) 8 = BitVec.allOnes 8) :
    (entriesField w).toList.take n = (entriesField w').toList.take n := by
  refine List.ext_getElem (by simp) fun j hj _ => ?_
  rw [List.length_take, Vector.length_toList] at hj
  simpa [entriesField, entryField] using slice_eq_of_and_eq h (hmask j hj)

/-- KB_TRIGGER reads the entries below NKEYS (rule R64). -/
theorem exec_kbTrigger_congr {nkeys : BitVec 4} {keys keys' : Vector Byte 12}
    (h : keys.toList.take nkeys.toNat = keys'.toList.take nkeys.toNat) (mods : BitVec 16) (s : State) :
    exec (.kbTrigger nkeys mods keys) s = exec (.kbTrigger nkeys mods keys') s := by
  simp only [exec, execKbTrigger, kbTriggerEffect, h]

/-- FRAME reads the payload bytes below LEN (rule R67). -/
theorem exec_frame_congr {len : Byte} {payload payload' : Vector Byte 12}
    (h : payload.toList.take len.toNat = payload'.toList.take len.toNat) (addr cmd : Byte) (s : State) :
    exec (.frame addr cmd len payload) s = exec (.frame addr cmd len payload') s := by
  simp only [exec, execFrame, frameEffect, h]

/-- Neither word has an operation, or both have one and these do the same. -/
def SameOperation (w w' : Request) : Prop :=
  (∃ j j', decode w = .error j ∧ decode w' = .error j') ∨
    ∃ i i', decode w = .ok i ∧ decode w' = .ok i' ∧ ∀ s, exec i s = exec i' s

theorem step_congr {w w' : Request} (h : SameOperation w w') (s : State) (r : WriteResult) (rest : List Arrival) :
    step (s.presenting w r rest) = step (s.presenting w' r rest) := by
  cases hscreens : screensOk s.cfgScreenX s.cfgScreenY with
  | false => simp [step, State.presenting, hscreens]
  | true =>
    obtain ⟨j, j', hj, hj'⟩ | ⟨i, i', hi, hi', hexec⟩ := h
    · rw [step_illegal (s := s.presenting w r rest) hscreens rfl hj,
        step_illegal (s := s.presenting w' r rest) hscreens rfl hj']
      rfl
    · rw [step_request (s := s.presenting w r rest) hscreens rfl hi,
        step_request (s := s.presenting w' r rest) hscreens rfl hi']
      exact hexec _

/-- Formats KT and FR list every entry (rules R64 and R67). -/
theorem entrySlice_listed {op : BitVec 4} (hop : op = 0x3 ∨ op = 0x6) {j : Nat} (hj : j < 12) :
    (formatMask op).extractLsb' (32 + 8 * j) 8 = BitVec.allOnes 8 := by
  obtain rfl | rfl := hop <;> revert j <;> decide

/-- Formats MA and MR list the same fields, whose places the two masks keep (rules R65 and R66). -/
theorem mouseFields_congr {w w' : Request} (h : w &&& formatMask 0x4 = w' &&& formatMask 0x4) :
    btnField w = btnField w' ∧ half1Field w = half1Field w' ∧ half2Field w = half2Field w' ∧
      half3Field w = half3Field w' :=
  ⟨slice_eq_of_and_eq h (by decide), slice_eq_of_and_eq h (by decide), slice_eq_of_and_eq h (by decide),
    slice_eq_of_and_eq h (by decide)⟩

/-- Words that agree on the bits that are read are the same operation, up to entries that it does not read. -/
theorem sameOperation_of_and_readMask {w w' : Request} (h : w &&& readMask w = w' &&& readMask w) :
    SameOperation w w' := by
  have hsame : opField w = opField w' := slice_eq_of_and_eq h (readMask_op w)
  have hformat (h3 : opField w ≠ 0x3) (h6 : opField w ≠ 0x6) :
      w &&& formatMask (opField w) = w' &&& formatMask (opField w) := by
    rwa [readMask_eq_formatMask h3 h6] at h
  obtain hop | hop | hop | hop | hop | hop | hop | hop := op_cases (opField w)
  · rw [hop] at hformat
    have hlisted := hformat (by decide) (by decide)
    have hkey : byte1Field w = byte1Field w' := slice_eq_of_and_eq hlisted (by decide)
    have hmods : half1Field w = half1Field w' := slice_eq_of_and_eq hlisted (by decide)
    exact .inr ⟨_, _, decode_kbPress hop, decode_kbPress (hsame ▸ hop), fun s => by rw [hkey, hmods]⟩
  · exact .inr ⟨_, _, decode_kbRelease hop, decode_kbRelease (hsame ▸ hop), fun _ => rfl⟩
  · rw [readMask_kbTrigger hop] at h
    have hnkeys : nkeysField w = nkeysField w' := slice_eq_of_and_eq h (counted_slice (by decide) (by omega))
    have hmods : half1Field w = half1Field w' := slice_eq_of_and_eq h (counted_slice (by decide) (by omega))
    have hkeys := take_entriesField_congr (n := (nkeysField w).toNat) h fun j hj =>
      counted_slice (entrySlice_listed (.inl rfl) (by omega)) (by omega)
    refine .inr ⟨_, _, decode_kbTrigger hop, decode_kbTrigger (hsame ▸ hop), fun s => ?_⟩
    rw [← hnkeys, ← hmods]
    exact exec_kbTrigger_congr hkeys _ s
  · rw [hop] at hformat
    obtain ⟨hbtn, hwheel, hx, hy⟩ := mouseFields_congr (hformat (by decide) (by decide))
    exact .inr ⟨_, _, decode_msAbs hop, decode_msAbs (hsame ▸ hop), fun s => by rw [hbtn, hwheel, hx, hy]⟩
  · rw [hop] at hformat
    obtain ⟨hbtn, hwheel, hdx, hdy⟩ := mouseFields_congr (hformat (by decide) (by decide))
    exact .inr ⟨_, _, decode_msRel hop, decode_msRel (hsame ▸ hop), fun s => by rw [hbtn, hwheel, hdx, hdy]⟩
  · rw [readMask_frame hop] at h
    have haddr : byte1Field w = byte1Field w' := slice_eq_of_and_eq h (counted_slice (by decide) (by omega))
    have hcmd : byte2Field w = byte2Field w' := slice_eq_of_and_eq h (counted_slice (by decide) (by omega))
    have hlen : byte3Field w = byte3Field w' := slice_eq_of_and_eq h (counted_slice (by decide) (by omega))
    have hpayload := take_entriesField_congr (n := (byte3Field w).toNat) h fun j hj =>
      counted_slice (entrySlice_listed (.inr rfl) (by omega)) (by omega)
    refine .inr ⟨_, _, decode_frame hop, decode_frame (hsame ▸ hop), fun s => ?_⟩
    rw [← haddr, ← hcmd, ← hlen]
    exact exec_frame_congr hpayload _ _ s
  · rw [hop] at hformat
    have hkey : byte1Field w = byte1Field w' :=
      slice_eq_of_and_eq (hformat (by decide) (by decide)) (by decide)
    exact .inr ⟨_, _, decode_keyLookup hop, decode_keyLookup (hsame ▸ hop), fun s => by rw [hkey]⟩
  · obtain ⟨hassigned, -⟩ | ⟨-, j, hdecode⟩ := decode_cases w
    · omega
    · obtain ⟨hassigned, -⟩ | ⟨-, j', hdecode'⟩ := decode_cases w'
      · rw [← hsame] at hassigned
        omega
      · exact .inl ⟨j, j', hdecode, hdecode'⟩

/-- Settles O39: by `sameOperation_of_and_readMask`, and a step does what the operation does. -/
theorem ignoredBitsHaveNoEffect : Obligations.IgnoredBitsHaveNoEffect := by
  unfold Obligations.IgnoredBitsHaveNoEffect
  intro w w' h
  exact step_congr (sameOperation_of_and_readMask h)

end Sys2Proof.Machine

/-! What the assembler writes is well-formed (rule R71, decision D26, log 13), and obligation O52. -/

namespace Sys2Proof.Machine

/-- The entries of a list are at most twelve, and those past its end are 0 (rule R71). -/
theorem length_and_unreadZero_of_entries {bs : List Byte} {v : Vector Byte 12} (h : entries bs = some v) :
    bs.length ≤ 12 ∧ unreadZero bs.length v = true := by
  unfold entries at h
  split at h
  · next hlength =>
    cases h
    refine ⟨hlength, ?_⟩
    simp only [unreadZero, List.all_eq_true, List.mem_iff_getElem]
    rintro _ ⟨j, hj, rfl⟩
    simp
  · cases h

theorem wellFormed_kbTrigger {keys : List Byte} {v : Vector Byte 12} (h : entries keys = some v) (mods : BitVec 16) :
    (Instr.kbTrigger (BitVec.ofNat 4 keys.length) mods v).wellFormed = true := by
  obtain ⟨hlength, hunread⟩ := length_and_unreadZero_of_entries h
  have hcount : (BitVec.ofNat 4 keys.length).toNat = keys.length := by
    rw [BitVec.toNat_ofNat]
    omega
  simp [Instr.wellFormed, hcount, hlength, hunread]

theorem wellFormed_frame {bytes : List Byte} {v : Vector Byte 12} (h : entries bytes = some v) (addr cmd : Byte) :
    (Instr.frame addr cmd (BitVec.ofNat 8 bytes.length) v).wellFormed = true := by
  obtain ⟨hlength, hunread⟩ := length_and_unreadZero_of_entries h
  have hcount : (BitVec.ofNat 8 bytes.length).toNat = bytes.length := toNat_lenByte (hlength.trans (by decide))
  simp [Instr.wellFormed, hcount, hlength, hunread]

/-- A `kb.trigger` has the count and the entries of its key list. -/
theorem wellFormed_of_assembleTrigger {ts : List Tok} {i : Instr} (h : assembleTrigger ts = some i) :
    i.wellFormed = true := by
  unfold assembleTrigger at h
  split at h
  · simp only [Option.bind_eq_some_iff, Option.map_eq_some_iff] at h
    obtain ⟨r, -, ks, -, keys, -, v, hentries, m, -, rfl⟩ := h
    exact wellFormed_kbTrigger hentries m
  · cases h

/-- A `frame` has the length and the payload of its byte list. -/
theorem wellFormed_of_assembleFrame {ts : List Tok} {i : Instr} (h : assembleFrame ts = some i) :
    i.wellFormed = true := by
  unfold assembleFrame at h
  split at h
  · simp only [Option.bind_eq_some_iff] at h
    obtain ⟨r, -, h⟩ := h
    split at h
    · simp only [Option.bind_eq_some_iff, Option.map_eq_some_iff] at h
      obtain ⟨bs, -, bytes, -, v, hentries, addr, -, cmd, -, rfl⟩ := h
      exact wellFormed_frame hentries addr cmd
    · cases h
  · cases h

theorem wellFormed_of_assembleAbs {ts : List Tok} {i : Instr} (h : assembleAbs ts = some i) : i.wellFormed = true := by
  unfold assembleAbs at h
  split at h
  · simp only [Option.bind_eq_some_iff, Option.map_eq_some_iff] at h
    obtain ⟨px, -, py, -, btn, -, wheel, -, rfl⟩ := h
    rfl
  · cases h

theorem wellFormed_of_assembleRel {ts : List Tok} {i : Instr} (h : assembleRel ts = some i) : i.wellFormed = true := by
  unfold assembleRel at h
  split at h
  · simp only [Option.bind_eq_some_iff, Option.map_eq_some_iff] at h
    obtain ⟨dx, -, dy, -, btn, -, wheel, -, rfl⟩ := h
    rfl
  · cases h

/-- A pseudo-operation expands to requests without counted entries (rule R72). -/
theorem wellFormed_of_mem_expandPseudo {p : Pseudo} {i : Instr} (h : i ∈ expandPseudo p) : i.wellFormed = true := by
  have tap {key : Byte} {mods : BitVec 16} (h : i ∈ tapRequests key mods) : i.wellFormed = true := by
    simp only [tapRequests, List.mem_cons, List.not_mem_nil, or_false] at h
    obtain rfl | rfl := h <;> rfl
  cases p with
  | msPress btn => rw [List.mem_singleton.mp h]; rfl
  | msRelease => rw [List.mem_singleton.mp h]; rfl
  | msMoveRel dx dy => rw [List.mem_singleton.mp h]; rfl
  | msMoveAbs x y => rw [List.mem_singleton.mp h]; rfl
  | msClick btn =>
    simp only [expandPseudo, List.mem_cons, List.not_mem_nil, or_false] at h
    obtain rfl | rfl := h <;> rfl
  | kbTap key mods => exact tap h
  | kbType text =>
    obtain ⟨key, -, hkey⟩ := List.mem_flatMap.mp h
    exact tap hkey

/-- A statement of one request, whatever reads its operands, has that request. -/
theorem wellFormed_of_map_singleton {α : Type} {o : Option α} {f : α → Instr} {is : List Instr}
    (h : (o.map fun a => [f a]) = some is) (hf : ∀ a, o = some a → (f a).wellFormed = true) :
    ∀ i ∈ is, i.wellFormed = true := by
  obtain ⟨a, ha, rfl⟩ := Option.map_eq_some_iff.mp h
  rw [List.forall_mem_singleton]
  exact hf a ha

/-- Each statement writes well-formed requests. -/
theorem wellFormed_of_assembleStatement {mnemonic : String} {ts : List Tok} {is : List Instr}
    (h : assembleStatement mnemonic ts = some is) : ∀ i ∈ is, i.wellFormed = true := by
  unfold assembleStatement at h
  split at h
  · exact wellFormed_of_map_singleton h fun _ _ => rfl
  · cases h
    rw [List.forall_mem_singleton]
    rfl
  · exact wellFormed_of_map_singleton h fun _ => wellFormed_of_assembleTrigger
  · exact wellFormed_of_map_singleton h fun _ => wellFormed_of_assembleAbs
  · exact wellFormed_of_map_singleton h fun _ => wellFormed_of_assembleRel
  · exact wellFormed_of_map_singleton h fun _ => wellFormed_of_assembleFrame
  · exact wellFormed_of_map_singleton h fun _ _ => rfl
  · obtain ⟨p, -, rfl⟩ := Option.map_eq_some_iff.mp h
    exact fun i => wellFormed_of_mem_expandPseudo

/-- Settles O52: an accepted line has no statement, or one. -/
theorem assemblerWritesWellFormedRequests : Obligations.AssemblerWritesWellFormedRequests := by
  unfold Obligations.AssemblerWritesWellFormedRequests
  intro line is h
  unfold assembleLine at h
  split at h
  · cases h
    exact List.forall_mem_nil _
  · exact wellFormed_of_assembleStatement h
  · cases h

end Sys2Proof.Machine
